-- ==== Sys2Proof/Word.lean ====
section
/-! DEFINITION. The words of the machine (00_scope.md R7, R9): register and cell bytes, instruction words,
instruction addresses, and the fields of an instruction word. -/

namespace Sys2Proof

/-- A register, a data-memory cell or the status register: 8 bits (R9). -/
abbrev Byte := BitVec 8

/-- An instruction word: 16 bits (R7, R70). -/
abbrev Word := BitVec 16

/-- An instruction address: the 16-bit word index that `pc` holds (R23; UNVERIFIED width, decision D2, log entry 6). -/
abbrev PcAddr := BitVec 16

/-- The operation field, bits 15:12 of a word (R71). -/
abbrev OpField := BitVec 4

/-- A 6-bit field of a word, r1 or r2/imm6 (R71). -/
abbrev Field6 := BitVec 6

/-- A register index, 0 to 63: no other index exists (R20, R22). -/
abbrev RegIdx := Fin 64

end Sys2Proof
end

