-- ==== Sys2Proof/Config.lean ====
section
/-! DEFINITION. The implementation parameters of 00_scope.md R7, at the values the spec takes. -/

namespace Sys2Proof

/-- IMEM_WORDS: the words of instruction memory (R7, R32). -/
abbrev Config.imemWords : Nat := 1024

/-- DMEM_CELLS and the data address wrap modulus (R7, R33). -/
abbrev Config.dmemCells : Nat := 2048

/-- The entry point: `pc` at reset (R45; UNVERIFIED, the spec's decision D3, log entry 7). -/
def Config.resetPc : PcAddr := 0

/-- INIT_REGS at its default: every register 0 (R42; UNVERIFIED, the spec's decision D4, log entry 7). -/
def Config.initRegs : Vector Byte 64 := Vector.replicate 64 0

/-- INIT_DMEM at its default: every cell 0, so no cell is listed (R43; UNVERIFIED, decision D5, log entry 7). -/
def Config.initDmem : List (Nat × Byte) := []

/-- FLUSH_REARMS_FETCH at the spec's decided value (R210; UNVERIFIED, decision D11, log entry 4).
The pipeline's definitions take the parameter as an argument; `step` passes this value. -/
def Config.flushRearmsFetch : Bool := false

end Sys2Proof
end

