-- ==== Sys2Proof/Machine/Operands.lean ====
section
/-! DEFINITION. The operand forms of 30_encoding.md R74 to R77, the data-address fold (45_load_store.md R162) and
the branch targets (44_control_transfer.md R150, R151). -/

namespace Sys2Proof.Machine

/-- `trunc_8(n)`: the 8-bit vector whose unsigned value is n mod 256 (00_scope.md R9). -/
def trunc8 (n : Int) : Byte := BitVec.ofInt 8 n

/-- `sext_8`: a 6-bit immediate widened to 8 bits by its sign bit (R75). -/
def sext8 (raw : Field6) : Byte :=
  if raw.getLsbD 5 then 0b11#2 ++ raw else 0b00#2 ++ raw

/-- A raw immediate: the field as an unsigned number, 0 to 63 (R76). -/
def rawImm (raw : Field6) : Nat := raw.toNat

/-- `wrap(a) = (2048 + a) mod 2048`, the data-address fold (R162). -/
def wrap (a : Int) : Nat := ((Config.dmemCells + a) % Config.dmemCells).toNat

/-- The one addressing mode: absolute by immediate, `wrap(s(sext_8(imm6)))` (R163). -/
def dataAddr (imm : Field6) : Nat := wrap (sext8 imm).toInt

/-- The BEQZ target `opc + 1 + r2`, r2 raw (R150; the base is the branch's own address: UNVERIFIED, decision D8,
log entry 10). -/
def beqzTarget (opc : PcAddr) (off : Field6) : PcAddr := opc + 1 + BitVec.ofNat 16 (rawImm off)

/-- The BR target `((h << 6) | l)[9:0]` on zero-extended registers (R151; UNVERIFIED widening and masking,
decision D9, log entry 11). -/
def brTarget (h l : Byte) : PcAddr :=
  (((h.setWidth 16 <<< 6) ||| l.setWidth 16).extractLsb' 0 10).setWidth 16

end Sys2Proof.Machine
end

