-- ==== Sys2Proof/Syntax.lean ====
section
/-! DEFINITION. The instructions, one constructor per row of spec/opcode_table.json (30_encoding.md R78), and the
field triple every word decodes to (R72). -/

namespace Sys2Proof

/-- The three fields of a word: op bits 15:12, r1 bits 11:6, r2/imm6 bits 5:0 (R71). -/
structure Fields where
  op : OpField
  r1 : Field6
  r2 : Field6
  deriving DecidableEq, Repr

/-- An instruction. Operand kinds follow R74: a register index, or the 6-bit immediate field as encoded
(`sext8` or `rawImm` of Machine/Operands.lean says how an opcode reads it). -/
inductive Instr where
  | add (rd rs : RegIdx)                 -- R120, RR
  | sub (rd rs : RegIdx)                 -- R121, RR
  | mul (rd rs : RegIdx)                 -- R122, RR
  | movi (rd : RegIdx) (imm : Field6)    -- R130, RI-signed
  | beqz (rt : RegIdx) (off : Field6)    -- R150, RI-raw
  | andi (rd : RegIdx) (imm : Field6)    -- R131, RI-signed
  | eor (rd rs : RegIdx)                 -- R132, RR
  | br (rh rl : RegIdx)                  -- R151, RR
  | sal (rd : RegIdx) (n : Field6)       -- R140, RI-raw
  | sar (rd : RegIdx) (n : Field6)       -- R141, RI-raw
  | ldr (rd : RegIdx) (imm : Field6)     -- R160, RI-signed
  | str (rs : RegIdx) (imm : Field6)     -- R161, RI-signed
  /-- A reserved opcode (R79, R170). The fields are kept, though no meaning reads them, so that an encoding
  is not lost (DESIGN CHOICE, log entry 19). -/
  | unknown (op : OpField) (r1 r2 : Field6)
  deriving DecidableEq, Repr

end Sys2Proof
end

