-- ==== Sys2Proof/Decode.lean ====
section
/-! DEFINITION. The instruction codec (30_encoding.md). Decoding is pure and total: every 16-bit word decodes and
none is refused (R72, R81), op values 12 to 15 to the unknown outcome (R79). The word 0x0000 decodes as
`ADD R0 R0`; that it ends a program is fetch's business (R80, R206). -/

namespace Sys2Proof

/-- op = w[15:12], r1 = w[11:6], r2 = w[5:0] (R72). -/
def decodeFields (w : Word) : Fields :=
  ⟨w.extractLsb' 12 4, w.extractLsb' 6 6, w.extractLsb' 0 6⟩

/-- (op << 12) | (r1 << 6) | r2 (R73). -/
def encodeFields (f : Fields) : Word :=
  (f.op.setWidth 16 <<< 12) ||| (f.r1.setWidth 16 <<< 6) ||| f.r2.setWidth 16

/-- A 6-bit field read as a register index (R74, R77). -/
def regOf (r : Field6) : RegIdx := ⟨r.toNat, r.isLt⟩

/-- The 6-bit field that names a register. -/
def regBits (i : RegIdx) : Field6 := BitVec.ofNat 6 i.val

/-- The opcode map of R78: the op field alone selects the instruction; R74 says how r2 is read. -/
def ofFields (f : Fields) : Instr :=
  match f.op.toNat with
  | 0 => .add (regOf f.r1) (regOf f.r2)
  | 1 => .sub (regOf f.r1) (regOf f.r2)
  | 2 => .mul (regOf f.r1) (regOf f.r2)
  | 3 => .movi (regOf f.r1) f.r2
  | 4 => .beqz (regOf f.r1) f.r2
  | 5 => .andi (regOf f.r1) f.r2
  | 6 => .eor (regOf f.r1) (regOf f.r2)
  | 7 => .br (regOf f.r1) (regOf f.r2)
  | 8 => .sal (regOf f.r1) f.r2
  | 9 => .sar (regOf f.r1) f.r2
  | 10 => .ldr (regOf f.r1) f.r2
  | 11 => .str (regOf f.r1) f.r2
  | _ => .unknown f.op f.r1 f.r2

/-- The instruction a word spells (R72, R78, R79). -/
def decode (w : Word) : Instr := ofFields (decodeFields w)

/-- The field triple of an instruction, from the encoding column of R78. -/
def toFields : Instr → Fields
  | .add rd rs => ⟨0, regBits rd, regBits rs⟩
  | .sub rd rs => ⟨1, regBits rd, regBits rs⟩
  | .mul rd rs => ⟨2, regBits rd, regBits rs⟩
  | .movi rd imm => ⟨3, regBits rd, imm⟩
  | .beqz rt off => ⟨4, regBits rt, off⟩
  | .andi rd imm => ⟨5, regBits rd, imm⟩
  | .eor rd rs => ⟨6, regBits rd, regBits rs⟩
  | .br rh rl => ⟨7, regBits rh, regBits rl⟩
  | .sal rd n => ⟨8, regBits rd, n⟩
  | .sar rd n => ⟨9, regBits rd, n⟩
  | .ldr rd imm => ⟨10, regBits rd, imm⟩
  | .str rs imm => ⟨11, regBits rs, imm⟩
  | .unknown op r1 r2 => ⟨op, r1, r2⟩

/-- The word of an instruction (R73, R78). -/
def encode (i : Instr) : Word := encodeFields (toFields i)

/-- The decoder on the bits of a row of the opcode table: one 16-bit word, bit 0 least significant (R8, R70).
Refused, by `none`, are a row wider than a word and a number that does not fit its row (log entry 21). -/
def decodeTableWord (nbits w : Nat) : Option Instr :=
  if nbits ≤ 16 ∧ w < 2 ^ nbits then some (decode (BitVec.ofNat 16 w)) else none

end Sys2Proof
end

