-- ==== Sys2Proof/Machine/Flags.lean ====
section
/-! DEFINITION. The flag unit (40_flag_unit.md) and the packing of its record into `sreg` (10_state.md R27). -/

namespace Sys2Proof.Machine

/-- The flag record {Z, S, N, V, C} (40_flag_unit.md). -/
structure Flags where
  z : Bool
  s : Bool
  n : Bool
  v : Bool
  c : Bool
  deriving DecidableEq, Repr

/-- The kinds of `update_flags` (R100). -/
inductive FlagKind where
  | add
  | sub
  | logic
  deriving DecidableEq, Repr

/-- Z: the result is 0x00 (R101). -/
def zeroFlag (r : Byte) : Bool := decide (r = 0x00)

/-- N: bit 7 of the result (R102). -/
def negFlag (r : Byte) : Bool := r.getLsbD 7

/-- C, by kind (R103): carry out of bit 7, borrow, or 0. -/
def carryFlag (a b : Byte) : FlagKind → Bool
  | .add => decide (a.toNat + b.toNat > 255)
  | .sub => decide (a.toNat < b.toNat)
  | .logic => false

/-- V, by kind (R104): signed overflow, from the operands' and the result's sign bits, or 0. -/
def overflowFlag (r a b : Byte) : FlagKind → Bool
  | .add => (a.getLsbD 7 == b.getLsbD 7) && (r.getLsbD 7 != a.getLsbD 7)
  | .sub => (a.getLsbD 7 != b.getLsbD 7) && (r.getLsbD 7 == b.getLsbD 7)
  | .logic => false

/-- `update_flags(result, operand1, operand2, kind)`: a complete new record (R100 to R105); S = N xor V. -/
def updateFlags (r a b : Byte) (k : FlagKind) : Flags where
  z := zeroFlag r
  s := negFlag r != overflowFlag r a b k
  n := negFlag r
  v := overflowFlag r a b k
  c := carryFlag a b k

/-- The Add kind (R110). -/
def flagsAdd (a b r : Byte) : Flags := updateFlags r a b .add

/-- The Sub kind (R111). -/
def flagsSub (a b r : Byte) : Flags := updateFlags r a b .sub

/-- The Logic kind, whose operands do not matter (R112). -/
def flagsLogic (r : Byte) : Flags := updateFlags r 0 0 .logic

/-- The reduced path of MUL, SAL and SAR (R106, R113). -/
def flagsReduced (r : Byte) : Flags where
  z := zeroFlag r
  s := negFlag r
  n := negFlag r
  v := false
  c := false

/-- `pack(F) = 0b000 ++ C ++ V ++ N ++ S ++ Z` (R27, R108; UNVERIFIED bit positions, decision D1, log entry 5). -/
def Flags.pack (F : Flags) : Byte :=
  0b000#3 ++ BitVec.ofBool F.c ++ BitVec.ofBool F.v ++ BitVec.ofBool F.n ++ BitVec.ofBool F.s ++ BitVec.ofBool F.z

/-- The flag record that a status byte holds, at the positions of R27. -/
def Flags.unpack (b : Byte) : Flags where
  z := b.getLsbD 0
  s := b.getLsbD 1
  n := b.getLsbD 2
  v := b.getLsbD 3
  c := b.getLsbD 4

end Sys2Proof.Machine
end

