-- ==== Sys2Proof/Machine/Memory.lean ====
section
/-! DEFINITION. A memory: the cells that differ from what an unlisted cell reads as, in one canonical form
(addresses strictly rising, no entry equal to the unlisted value). Data memory has cells of 8 bits (its list is a
list of Host.Cell) and instruction memory cells of 16 bits, whole words, since the spec gives no byte structure
to either (20_memory.md R52; log entry 15). -/

namespace Sys2Proof.Machine

/-- Cells of `w` bits by address. -/
abbrev Memory (w : Nat) := List (Nat × BitVec w)

/-- What an unlisted cell reads as: 0, which 10_state.md R43 and R44 give for both memories at reset. -/
def Memory.unlisted (w : Nat) : BitVec w := 0

/-- The cell at an address. -/
def Memory.read {w : Nat} : Memory w → Nat → BitVec w
  | [], _ => Memory.unlisted w
  | (b, v) :: m, a => if b = a then v else Memory.read m a

/-- `m` with the cell at `a` holding `v`, in canonical form again. -/
def Memory.write {w : Nat} : Memory w → Nat → BitVec w → Memory w
  | [], a, v => if v = Memory.unlisted w then [] else [(a, v)]
  | (b, u) :: m, a, v =>
    if a < b then (if v = Memory.unlisted w then (b, u) :: m else (a, v) :: (b, u) :: m)
    else if a = b then (if v = Memory.unlisted w then m else (a, v) :: m)
    else (b, u) :: Memory.write m a v

/-- Addresses rise strictly from `lo` on, all below `size`, and no entry holds the unlisted value. -/
def Memory.wfFrom {w : Nat} (size : Nat) : Nat → Memory w → Bool
  | _, [] => true
  | lo, (a, v) :: m =>
    decide (lo ≤ a) && decide (a < size) && decide (v ≠ Memory.unlisted w) && Memory.wfFrom size (a + 1) m

/-- The canonical form, for a memory of `size` cells. -/
def Memory.wf {w : Nat} (size : Nat) (m : Memory w) : Bool := Memory.wfFrom size 0 m

/-- The memory that holds `vs` from address `base` up and nothing else (the loader's words, R44). -/
def Memory.ofCells {w : Nat} : Nat → List (BitVec w) → Memory w
  | _, [] => []
  | base, v :: vs =>
    if v = Memory.unlisted w then Memory.ofCells (base + 1) vs else (base, v) :: Memory.ofCells (base + 1) vs

end Sys2Proof.Machine
end

