-- ==== Sys2Proof/Machine/State.lean ====
section
/-! DEFINITION. The state of the core: all that 10_state.md names (R20 to R41) and the diagnostic events of
60_exceptions.md R181, as plain data; the reasons a step can stop; the state right after reset (R42 to R49). -/

namespace Sys2Proof.Machine

/-- A stage record (R34): active, the raw word, its originating pc, and the decoded fields.
When `active` is false the rest is meaningless and no rule reads it. -/
structure StageRecord where
  active : Bool
  word : Word
  opc : PcAddr
  op : OpField
  r1 : Field6
  r2 : Field6
  deriving DecidableEq, Repr

/-- A diagnostic output event (R181): a reserved opcode executed, with its address and its word
(UNVERIFIED content, the spec's decision D19, log entry 14). -/
inductive Diagnostic where
  | unknownOpcode (opc : PcAddr) (word : Word)
  deriving DecidableEq, Repr

/-- The machine. -/
structure State where
  /-- x[0] to x[63] (R20). -/
  regs : Vector Byte 64
  /-- The address of the next word to fetch (R23). -/
  pc : PcAddr
  /-- The status register, 0 0 0 C V N S Z (R27). -/
  sreg : Byte
  /-- Instruction memory, 1024 words (R32). -/
  imem : Memory 16
  /-- Data memory, 2048 cells (R33). -/
  dmem : Memory 8
  /-- The fetch record; `f.active` is the fetch enable (R35). -/
  f : StageRecord
  /-- The decode record (R36). -/
  d : StageRecord
  /-- The execute record (R36). -/
  e : StageRecord
  /-- The flush request: none, or pending with its target (R37). -/
  flush : Option PcAddr
  /-- End-of-program observed (R38). -/
  eop : Bool
  /-- The cycle counter (R40; UNVERIFIED unbounded, decision D25, log entry 17). -/
  cycles : Nat
  /-- The diagnostic events emitted so far, oldest first (R181, R190). -/
  diags : List Diagnostic
  deriving DecidableEq, Repr

/-- Why the machine stops with a fault. The spec has no exception (R180); this is the model's own report of an
access that the spec calls a programming defect. -/
inductive Fault where
  /-- A data-memory access at an address of 2048 or more (93_implementation_defined.md I5, "fault in the model").
  Raised by `dmemLoad` and `dmemStore`; no meaning reaches it, since `wrap` folds every address (R162).
  Safe: the model stops where the spec gives no behaviour. -/
  | dataAddressOutOfRange (addr : Nat)
  deriving DecidableEq, Repr

/-- Why the machine refuses an instruction. -/
inductive Refusal where
  /-- An instruction without a meaning yet, raised by an arm of `exec`; no arm raises it now. Safe. -/
  | notModelled (mnemonic : String)
  deriving DecidableEq, Repr

/-- A record with no content (R47); its meaningless fields are 0 (DESIGN CHOICE, log entry 8). -/
def StageRecord.empty : StageRecord := ⟨false, 0, 0, 0, 0, 0⟩

/-- Right after reset, with nothing loaded yet (R42 to R49, R200): fetch enabled with no content, the other records
Idle, all else 0, none or false. -/
def State.reset : State where
  regs := Config.initRegs
  pc := Config.resetPc
  sreg := 0x00
  imem := []
  dmem := Config.initDmem
  f := { StageRecord.empty with active := true }
  d := StageRecord.empty
  e := StageRecord.empty
  flush := none
  eop := false
  cycles := 0
  diags := []

end Sys2Proof.Machine
end

