-- ==== Sys2Proof/Machine/Ops.lean ====
section
/-! DEFINITION. The named operations on the state that the instruction rules use (00_scope.md R10). The core takes
no exception and returns from none (60_exceptions.md R180, R185, R186), so there is no such operation; what a
reserved opcode does instead is `emitDiag` (R181), and a control transfer is `requestFlush` (R152). -/

namespace Sys2Proof.Machine

/-- The outcome of a meaning or a step. -/
abbrev Result := Host.Outcome State Fault Refusal

/-- `x[i]` (R10). No register is hardwired (R21; UNVERIFIED, decision D26, log entry 22). -/
def readReg (s : State) (i : RegIdx) : Byte := s.regs[i]

/-- `x[i] <- v` (R10, R21). -/
def writeReg (s : State) (i : RegIdx) (v : Byte) : State := { s with regs := s.regs.set i v }

/-- The flags as a record (R27). -/
def readFlags (s : State) : Flags := Flags.unpack s.sreg

/-- `sreg <- pack(F)`: all five flags at once, bits 7:5 zero (R28, R108). -/
def writeFlags (s : State) (F : Flags) : State := { s with sreg := F.pack }

/-- The data-memory cell at an address, as the observer reads it (R190). -/
def dmemCell (s : State) (a : Nat) : Byte := s.dmem.read a

/-- The instruction-memory word at an address, `IMemRead(a)` (R10); fetch asks for addresses below 1024 only. -/
def imemWord (s : State) (a : Nat) : Word := s.imem.read a

/-- `MemRead(addr, 1)` (R10): one whole cell, no side effect (R54). An address that does not exist faults
(93_implementation_defined.md I5; log entry 16). -/
def dmemLoad (s : State) (a : Nat) : Except Fault Byte :=
  if a < Config.dmemCells then .ok (dmemCell s a) else .error (.dataAddressOutOfRange a)

/-- The state with one data-memory cell replaced. -/
def writeCell (s : State) (a : Nat) (v : Byte) : State := { s with dmem := s.dmem.write a v }

/-- `MemWrite(addr, 1, v)` (R10): one whole cell (R54). An address that does not exist faults (I5; log entry 16). -/
def dmemStore (s : State) (a : Nat) (v : Byte) : Except Fault State :=
  if a < Config.dmemCells then .ok (writeCell s a v) else .error (.dataAddressOutOfRange a)

/-- `request_flush(t)`: `flush <- pending(t)`; `pc` is not written (R152). -/
def requestFlush (s : State) (t : PcAddr) : State := { s with flush := some t }

/-- `diag(unknown_opcode, opc, word)`: one output event, nothing else (R181). -/
def emitDiag (s : State) (opc : PcAddr) (word : Word) : State :=
  { s with diags := s.diags ++ [.unknownOpcode opc word] }

/-- Write a result and its flags, the end of every flag-affecting instruction (R108). -/
def writeResult (s : State) (rd : RegIdx) (r : Byte) (F : Flags) : State := writeFlags (writeReg s rd r) F

/-- A record holding a word fetched at `opc`, with its decoded fields (R34, R36). -/
def StageRecord.ofWord (w : Word) (opc : PcAddr) : StageRecord where
  active := true
  word := w
  opc := opc
  op := (decodeFields w).op
  r1 := (decodeFields w).r1
  r2 := (decodeFields w).r2

/-- The record made Idle. The pseudocode R211 clears `active` and nothing else (log entry 9). -/
def StageRecord.idle (r : StageRecord) : StageRecord := { r with active := false }

/-- The instruction a record's decoded fields name (R78, R204; DEDUCED, log entry 20). -/
def StageRecord.instr (r : StageRecord) : Instr := ofFields ⟨r.op, r.r1, r.r2⟩

end Sys2Proof.Machine
end

