-- ==== Sys2Proof/Machine/Arithmetic.lean ====
section
/-! DEFINITION. ADD, SUB and MUL (41_arithmetic.md). Operands are read before anything is written (00_scope.md R11,
40_flag_unit.md R109); results wrap to 8 bits (R123). -/

namespace Sys2Proof.Machine

/-- ADD (R120): `trunc_8(u(a) + u(b))`, Add flags. -/
def execAdd (rd rs : RegIdx) (s : State) : Result :=
  let a := readReg s rd
  let b := readReg s rs
  let r := trunc8 ((a.toNat : Int) + b.toNat)
  .next (writeResult s rd r (flagsAdd a b r))

/-- SUB (R121): `trunc_8(u(a) - u(b))`, Sub flags. -/
def execSub (rd rs : RegIdx) (s : State) : Result :=
  let a := readReg s rd
  let b := readReg s rs
  let r := trunc8 ((a.toNat : Int) - b.toNat)
  .next (writeResult s rd r (flagsSub a b r))

/-- MUL (R122): `trunc_8(s(a) * s(b))`, reduced flags. -/
def execMul (rd rs : RegIdx) (s : State) : Result :=
  let a := readReg s rd
  let b := readReg s rs
  let r := trunc8 (a.toInt * b.toInt)
  .next (writeResult s rd r (flagsReduced r))

end Sys2Proof.Machine
end

