-- ==== Sys2Proof/Machine/Control.lean ====
section
/-! DEFINITION. BEQZ and BR (44_control_transfer.md) and the reserved opcodes (46_unknown_opcode.md). They run
on the execute record: its originating pc is the instruction's own address (R11, R25), its word goes into the
diagnostic (R181). No control transfer writes `pc`; it posts a flush request (R152). -/

namespace Sys2Proof.Machine

/-- BEQZ (R150): if x[r1] is zero, request a flush to `opc + 1 + r2`; else nothing at all. -/
def execBeqz (rt : RegIdx) (off : Field6) (s : State) : Result :=
  if readReg s rt = 0x00 then .next (requestFlush s (beqzTarget s.e.opc off)) else .next s

/-- BR (R151): request a flush to the target formed from two registers, always. -/
def execBr (rh rl : RegIdx) (s : State) : Result :=
  .next (requestFlush s (brTarget (readReg s rh) (readReg s rl)))

/-- UNKNOWN (R170, R171): a diagnostic event and nothing else; the fields are ignored. -/
def execUnknown (_op : OpField) (_r1 _r2 : Field6) (s : State) : Result :=
  .next (emitDiag s s.e.opc s.e.word)

end Sys2Proof.Machine
end

