-- ==== Sys2Proof/Machine/LoadStore.lean ====
section
/-! DEFINITION. LDR and STR (45_load_store.md): one cell, the absolute address of R163, no flags. -/

namespace Sys2Proof.Machine

/-- LDR (R160). -/
def execLdr (rd : RegIdx) (imm : Field6) (s : State) : Result :=
  match dmemLoad s (dataAddr imm) with
  | .ok v => .next (writeReg s rd v)
  | .error f => .fault f

/-- STR (R161). -/
def execStr (rs : RegIdx) (imm : Field6) (s : State) : Result :=
  match dmemStore s (dataAddr imm) (readReg s rs) with
  | .ok s' => .next s'
  | .error f => .fault f

end Sys2Proof.Machine
end

