-- ==== Sys2Proof/Machine/Logic.lean ====
section
/-! DEFINITION. MOVI, ANDI and EOR (42_logic_immediate.md). -/

namespace Sys2Proof.Machine

/-- MOVI (R130): `x[r1] <- sext_8(r2)`, no flags. -/
def execMovi (rd : RegIdx) (imm : Field6) (s : State) : Result :=
  .next (writeReg s rd (sext8 imm))

/-- ANDI (R131): `x[r1] & sext_8(r2)`, Logic flags. -/
def execAndi (rd : RegIdx) (imm : Field6) (s : State) : Result :=
  let r := readReg s rd &&& sext8 imm
  .next (writeResult s rd r (flagsLogic r))

/-- EOR (R132): `x[r1] ^ x[r2]`, Logic flags. -/
def execEor (rd rs : RegIdx) (s : State) : Result :=
  let r := readReg s rd ^^^ readReg s rs
  .next (writeResult s rd r (flagsLogic r))

end Sys2Proof.Machine
end

