-- ==== Sys2Proof/Machine/Shift.lean ====
section
/-! DEFINITION. SAL and SAR (43_shift.md). The count is the raw r2 field, 0 to 63 (R76); each shift is exact
arithmetic on the 8-bit value, at every count (R142; UNVERIFIED for counts of 8 and more, decision D10, log
entry 12). -/

namespace Sys2Proof.Machine

/-- `trunc_8(u(a) * 2^n)` (R140). -/
def shiftLeft (a : Byte) (n : Nat) : Byte := trunc8 (a.toNat * 2 ^ n)

/-- `trunc_8(floor(s(a) / 2^n))` (R141). -/
def shiftRightArith (a : Byte) (n : Nat) : Byte := trunc8 (Int.fdiv a.toInt (2 ^ n))

/-- SAL (R140), reduced flags. -/
def execSal (rd : RegIdx) (n : Field6) (s : State) : Result :=
  let r := shiftLeft (readReg s rd) (rawImm n)
  .next (writeResult s rd r (flagsReduced r))

/-- SAR (R141), reduced flags. -/
def execSar (rd : RegIdx) (n : Field6) (s : State) : Result :=
  let r := shiftRightArith (readReg s rd) (rawImm n)
  .next (writeResult s rd r (flagsReduced r))

end Sys2Proof.Machine
end

