-- ==== Sys2Proof/Machine/Dispatch.lean ====
section
/-! DEFINITION. The execution unit's dispatch (30_encoding.md R78): one arm per instruction. -/

namespace Sys2Proof.Machine

def exec (i : Instr) (s : State) : Host.Outcome State Fault Refusal :=
  match i with
  | .add rd rs => Sys2Proof.Machine.execAdd rd rs s
  | .sub rd rs => Sys2Proof.Machine.execSub rd rs s
  | .mul rd rs => Sys2Proof.Machine.execMul rd rs s
  | .movi rd imm => Sys2Proof.Machine.execMovi rd imm s
  | .beqz rt off => Sys2Proof.Machine.execBeqz rt off s
  | .andi rd imm => Sys2Proof.Machine.execAndi rd imm s
  | .eor rd rs => Sys2Proof.Machine.execEor rd rs s
  | .br rh rl => Sys2Proof.Machine.execBr rh rl s
  | .sal rd n => Sys2Proof.Machine.execSal rd n s
  | .sar rd n => Sys2Proof.Machine.execSar rd n s
  | .ldr rd imm => Sys2Proof.Machine.execLdr rd imm s
  | .str rs imm => Sys2Proof.Machine.execStr rs imm s
  | .unknown op r1 r2 => Sys2Proof.Machine.execUnknown op r1 r2 s

end Sys2Proof.Machine
end

