-- ==== Sys2Proof/Machine/Pipeline.lean ====
section
/-! DEFINITION. The pipeline controller: one cycle, in the order flush, execute, decode, fetch, halt check
(70_reset_and_hazards.md R202 to R211). `rearm` is the parameter FLUSH_REARMS_FETCH (R210); the spec decides false
(Config.flushRearmsFetch, log entry 4). -/

namespace Sys2Proof.Machine

/-- Step 1, flush (R203): a pending request makes D and E Idle, sets `pc` to its target and is cleared. With `rearm`
it also enables fetch and clears `eop` (R210). -/
def flushStage (rearm : Bool) (s : State) : State :=
  match s.flush with
  | none => s
  | some t =>
    { s with
      d := s.d.idle
      e := s.e.idle
      pc := t
      flush := none
      f := if rearm then { s.f with active := true } else s.f
      eop := if rearm then false else s.eop }

/-- E made Idle, the end of step 2 (R204). -/
def retire (s : State) : State := { s with e := s.e.idle }

/-- Step 2, execute (R204): an active E runs its instruction and becomes Idle. -/
def executeStage (s : State) : Result :=
  if s.e.active then
    match exec s.e.instr s with
    | .next t => .next (retire t)
    | .fault r => .fault r
    | .refused r => .refused r
  else .next s

/-- Step 3, decode (R205): an active D moves to E with its word decoded. -/
def decodeStage (s : State) : State :=
  if s.d.active then { s with e := StageRecord.ofWord s.d.word s.d.opc, d := s.d.idle } else s

/-- Fetch finds no instruction at `pc`: out of range, or the zero word (R206, R80; the zero word is kept as the
end marker: UNVERIFIED, decision D12, log entry 13). -/
def fetchEnds (s : State) : Bool :=
  decide (Config.imemWords ≤ s.pc.toNat) || decide (imemWord s s.pc.toNat = 0x0000)

/-- Step 4, fetch (R206): while enabled, end the program or bring the word at `pc` into D (with a copy in F for the
observer) and advance `pc`. -/
def fetchStage (s : State) : State :=
  if s.f.active then
    if fetchEnds s then { s with f := s.f.idle, eop := true }
    else
      { s with
        d := StageRecord.ofWord (imemWord s s.pc.toNat) s.pc
        f := StageRecord.ofWord (imemWord s s.pc.toNat) s.pc
        pc := s.pc + 1 }
  else s

/-- Step 5, the halt check (R207): end-of-program observed and all three stages Idle; with `rearm`, no flush pending
either (R210). -/
def haltedWith (rearm : Bool) (s : State) : Bool :=
  s.eop && !s.f.active && !s.d.active && !s.e.active && (!rearm || s.flush.isNone)

/-- The cycle counter goes up at the start of a cycle (R208). -/
def countCycle (s : State) : State := { s with cycles := s.cycles + 1 }

/-- One cycle (R211). -/
def cycleWith (rearm : Bool) (s : State) : Result :=
  match executeStage (flushStage rearm (countCycle s)) with
  | .next t => .next (fetchStage (decodeStage t))
  | .fault r => .fault r
  | .refused r => .refused r

/-- What the host's request for a cycle does: a cycle while not Halted. Halted is final and keeps all state
(R191, R209), so there the state stays as it is (DESIGN CHOICE, log entry 2). -/
def stepWith (rearm : Bool) (s : State) : Result :=
  if haltedWith rearm s then .next s else cycleWith rearm s

/-- Halted, at the spec's FLUSH_REARMS_FETCH (R207). -/
def halted (s : State) : Bool := haltedWith Config.flushRearmsFetch s

/-- The controller states (R39). -/
inductive ControllerState where
  | running
  | draining
  | halted
  deriving DecidableEq, Repr

/-- The controller state, a function of the other state (R39). -/
def controllerState (s : State) : ControllerState :=
  if halted s then .halted else if s.eop then .draining else .running

end Sys2Proof.Machine
end

