-- ==== Sys2Proof/Machine/Boot.lean ====
section
/-! DEFINITION. What the host does before the first cycle (70_reset_and_hazards.md R201, 60_exceptions.md R192): load
instruction memory once, and seed registers and data memory if it wishes. -/

namespace Sys2Proof.Machine

/-- LOADER_OVERFLOW, the open parameter of decision D24: what becomes of more than 1024 words (log entry 18). -/
inductive LoaderOverflow where
  | truncate
  | reject
  deriving DecidableEq, Repr

/-- Load (R44, R192): word i of the loader's output to instruction address i, the rest 0, over whatever stood there
(DESIGN CHOICE, log entry 18; R192 loads once, into zeros). No word at all is a load failure, and no run starts (R182);
so is a program that the policy rejects. -/
def loadProgram (overflow : LoaderOverflow) (ws : List Word) (s : State) : Option State :=
  if ws = [] then none
  else if Config.imemWords < ws.length ∧ overflow = .reject then none
  else some { s with imem := Memory.ofCells 0 (ws.take Config.imemWords) }

/-- INIT_REGS (R42, R192): the host sets the registers. -/
def seedRegs (xs : Vector Byte 64) (s : State) : State := { s with regs := xs }

/-- INIT_DMEM (R43, R192): the host sets data memory, cell i to the i-th value, the rest 0, over whatever
stood there (DESIGN CHOICE, log entry 18). -/
def seedDmem (vs : List Byte) (s : State) : State :=
  { s with dmem := Memory.ofCells 0 (vs.take Config.dmemCells) }

/-- The registers as the source's CLI seeds them (R42): x[1] = 5, x[2] = 20, x[3] = 100, the rest 0. -/
def cliRegs : Vector Byte 64 := ((Config.initRegs.set 1 5).set 2 20).set 3 100

end Sys2Proof.Machine
end

