-- ==== Sys2Proof/Machine/Step.lean ====
section
/-! DEFINITION. The step of the core: one cycle of the pipeline controller (70_reset_and_hazards.md R202), and where a
single instruction is put for the next step to run it. -/

namespace Sys2Proof.Machine

/-- One cycle, at the spec's FLUSH_REARMS_FETCH; at Halted the state stays (log entries 1, 2 and 4). -/
def step (s : State) : Host.Outcome State Fault Refusal := stepWith Config.flushRearmsFetch s

/-- `s` with the word placed so that the next step executes it: stored in instruction memory at `pc`, and brought
to the execute record as the fetch and decode of earlier cycles bring it there (originating pc the old `pc`, `pc` one
further, no flush pending). It stands for the load and the two cycles before (log entry 3). -/
def State.withFetchWord (s : State) (nbits w : Nat) : State :=
  let word := BitVec.ofNat 16 (w % 2 ^ nbits)
  { s with
    imem := if s.pc.toNat < Config.imemWords then s.imem.write s.pc.toNat word else s.imem
    e := StageRecord.ofWord word s.pc
    pc := s.pc + 1
    flush := none }

end Sys2Proof.Machine
end

