-- ==== Sys2Proof/WellFormed.lean ====
section
/-! DEFINITION. Which terms of `Instr` stand for an encoding. Register indices and immediates are in range by
their types (R22, R71); what is left to check is that `unknown` holds a reserved op value (R79). -/

namespace Sys2Proof

/-- An op value is reserved: 12 to 15 (R79). -/
abbrev OpField.Reserved (op : OpField) : Prop := 12 ≤ op.toNat

/-- The instruction is one that decoding can answer. -/
abbrev Instr.WellFormed : Instr → Prop
  | .add _ _ => True
  | .sub _ _ => True
  | .mul _ _ => True
  | .movi _ _ => True
  | .beqz _ _ => True
  | .andi _ _ => True
  | .eor _ _ => True
  | .br _ _ => True
  | .sal _ _ => True
  | .sar _ _ => True
  | .ldr _ _ => True
  | .str _ _ => True
  | .unknown op _ _ => OpField.Reserved op

end Sys2Proof
end

