-- ==== Sys2Proof/Safety.lean ====
section
/-! DEFINITION. What counts as a safe run: the invariant of the reachable states, the frames that claims about
instructions use, and a run under fuel. -/

namespace Sys2Proof.Machine

/-- A record's decoded fields are those of its word (10_state.md R36). -/
def StageRecord.Decoded (r : StageRecord) : Prop := (⟨r.op, r.r1, r.r2⟩ : Fields) = decodeFields r.word

/-- A record holds what instruction memory holds at its originating pc, which exists, and that is not the end
marker (30_encoding.md R80: the zero word is never a live instruction). -/
def LiveIn (s : State) (r : StageRecord) : Prop :=
  r.opc.toNat < Config.imemWords ∧ r.word = imemWord s r.opc.toNat ∧ r.word ≠ 0x0000

/-- The largest value of `pc` that can be reached (10_state.md R26). -/
abbrev maxPc : Nat := 1087

/-- The invariant of the states that a run can reach. -/
structure CoreInv (s : State) : Prop where
  /-- Instruction memory is in canonical form and holds addresses 0 to 1023 only (R50). -/
  imem_wf : s.imem.wf Config.imemWords = true
  /-- Data memory is in canonical form and holds addresses 0 to 2047 only (R50). -/
  dmem_wf : s.dmem.wf Config.dmemCells = true
  /-- Bits 7:5 of `sreg` are zero (R27). -/
  sreg_top : s.sreg.extractLsb' 5 3 = 0
  /-- `pc` never passes 1087 (R26). -/
  pc_le : s.pc.toNat ≤ maxPc
  /-- Nor does a pending target (R153). -/
  flush_le : ∀ t, s.flush = some t → t.toNat ≤ maxPc
  /-- Fetch is enabled exactly until end-of-program is observed (R35, R38). -/
  fetch_until_eop : s.eop = !s.f.active
  /-- The decoded fields of every record are those of its word (R36). -/
  f_decoded : s.f.Decoded
  d_decoded : s.d.Decoded
  e_decoded : s.e.Decoded
  /-- An active D or E holds a live word of instruction memory (R80, R206). -/
  d_live : s.d.active = true → LiveIn s s.d
  e_live : s.e.active = true → LiveIn s s.e
  /-- An active D holds the word before `pc`, and an active E the one before that of D (R206, R212). -/
  d_place : s.d.active = true → s.pc.toNat = s.d.opc.toNat + 1
  e_place : s.e.active = true → s.pc.toNat = s.e.opc.toNat + 1 + s.d.active.toNat

/-- Every register but `d` reads as before. -/
def SameRegsExcept (d : RegIdx) (s t : State) : Prop := ∀ j, j ≠ d → readReg t j = readReg s j

/-- Every register reads as before. -/
def SameRegs (s t : State) : Prop := ∀ j, readReg t j = readReg s j

/-- Every data-memory cell but the one at `a` reads as before. -/
def SameDmemExcept (a : Nat) (s t : State) : Prop := ∀ b, b ≠ a → dmemCell t b = dmemCell s b

/-- Every data-memory cell reads as before. -/
def SameDmem (s t : State) : Prop := ∀ b, dmemCell t b = dmemCell s b

/-- `pc`, instruction memory, the stage records, `eop` and the cycle counter are as before: what no instruction
writes when it executes (10_state.md R24, 70_reset_and_hazards.md R204). -/
def SameController (s t : State) : Prop :=
  t.pc = s.pc ∧ t.imem = s.imem ∧ t.f = s.f ∧ t.d = s.d ∧ t.e = s.e ∧ t.eop = s.eop ∧ t.cycles = s.cycles

/-- No flush request and no diagnostic event is made. -/
def NoEvent (s t : State) : Prop := t.flush = s.flush ∧ t.diags = s.diags

/-- The report of a run under fuel (70_reset_and_hazards.md R209, decision D28). -/
inductive RunReport where
  /-- The core reached Halted; `cycles` of the state is the total latency (R208). -/
  | halted (s : State)
  /-- The fuel ran out before Halted was reached. -/
  | notHalted (s : State)
  /-- A step stopped with a fault. -/
  | fault (r : Fault)
  /-- A step refused. -/
  | refused (r : Refusal)
  deriving DecidableEq, Repr

/-- Run cycles until Halted, at most `fuel` of them (R207 to R209). -/
def runFor : Nat → State → RunReport
  | 0, s => if Machine.halted s then .halted s else .notHalted s
  | k + 1, s =>
    if Machine.halted s then .halted s
    else
      match step s with
      | .next t => runFor k t
      | .fault r => .fault r
      | .refused r => .refused r

end Sys2Proof.Machine
end

