-- ==== Sys2Proof/Certificates/Slice0/Obligations.lean ====
section
/-! DEFINITION. The statements about the model, from the numbered rules of spec/. A docstring says which rule or
passage a statement formalises, and names the log entry of a value that the spec marks as its own decision. -/

set_option autoImplicit false

open Sys2Proof Sys2Proof.Machine

/-! The codec. -/

/-- R73 for instructions: decoding an encoded well-formed instruction gives it back, whatever its operands, and every
word is the encoding of the well-formed instruction it decodes to (the second half is the spec's own inference). -/
def Obligations.DecodeAndEncodeAgree : Prop :=
  (∀ i : Instr, i.WellFormed → decode (encode i) = i) ∧
    ∀ w : Word, (decode w).WellFormed ∧ encode (decode w) = w

/-- R73 for field triples: (op << 12) | (r1 << 6) | r2, read back as the same triple. -/
def Obligations.FieldTripleRoundTrip : Prop :=
  ∀ f : Fields, decodeFields (encodeFields f) = f ∧
    (encodeFields f).toNat = f.op.toNat * 4096 + f.r1.toNat * 64 + f.r2.toNat

/-- R72: op = w[15:12], r1 = w[11:6], r2 = w[5:0], for every word; an op of 12 to 15 is the unknown outcome. -/
def Obligations.DecodeReadsTheBitRanges : Prop :=
  ∀ w : Word,
    (decodeFields w).op.toNat = w.toNat / 4096 ∧ (decodeFields w).r1.toNat = w.toNat / 64 % 64 ∧
    (decodeFields w).r2.toNat = w.toNat % 64 ∧
    (12 ≤ (decodeFields w).op.toNat →
      decode w = .unknown (decodeFields w).op (decodeFields w).r1 (decodeFields w).r2)

/-- R78, the opcode map: for every pattern of the table, with every operand bit free, the instruction it spells. -/
def Obligations.OpcodeMapOfEveryPattern : Prop :=
  ∀ a b : Field6,
    decode (0x0#4 ++ a ++ b) = .add (regOf a) (regOf b) ∧
    decode (0x1#4 ++ a ++ b) = .sub (regOf a) (regOf b) ∧
    decode (0x2#4 ++ a ++ b) = .mul (regOf a) (regOf b) ∧
    decode (0x3#4 ++ a ++ b) = .movi (regOf a) b ∧
    decode (0x4#4 ++ a ++ b) = .beqz (regOf a) b ∧
    decode (0x5#4 ++ a ++ b) = .andi (regOf a) b ∧
    decode (0x6#4 ++ a ++ b) = .eor (regOf a) (regOf b) ∧
    decode (0x7#4 ++ a ++ b) = .br (regOf a) (regOf b) ∧
    decode (0x8#4 ++ a ++ b) = .sal (regOf a) b ∧
    decode (0x9#4 ++ a ++ b) = .sar (regOf a) b ∧
    decode (0xA#4 ++ a ++ b) = .ldr (regOf a) b ∧
    decode (0xB#4 ++ a ++ b) = .str (regOf a) b ∧
    ∀ x : BitVec 2, decode (0b11#2 ++ x ++ a ++ b) = .unknown (0b11#2 ++ x) a b

/-- The decode examples of R86, each family of the table once. -/
def Obligations.DecodeOfSampleWords : Prop :=
  decode 0x0042 = .add 1 2 ∧ decode 0x304A = .movi 1 10 ∧ decode 0x4FFF = .beqz 63 63 ∧
  decode 0x728B = .br 10 11 ∧ decode 0x9042 = .sar 1 2 ∧ decode 0xA0CA = .ldr 3 10 ∧
  decode 0xB04A = .str 1 10 ∧ decode 0xFFFF = .unknown 15 63 63 ∧ decode 0x0000 = .add 0 0

/-- R75: `s(sext_8(raw))` is raw - 64 if raw >= 32, else raw; as bits, raw | 0xC0 or raw. -/
def Obligations.SignExtensionOfImmediates : Prop :=
  ∀ raw : Field6,
    (sext8 raw).toInt = (if 32 ≤ raw.toNat then (raw.toNat : Int) - 64 else raw.toNat) ∧
    sext8 raw = (if raw.getLsbD 5 then raw.setWidth 8 ||| 0xC0#8 else raw.setWidth 8)

/-! The flag unit. -/

/-- R101 to R105: every flag of `update_flags`, by kind. -/
def Obligations.UpdateFlagsByKind : Prop :=
  ∀ r a b : Byte,
    (∀ k, ((updateFlags r a b k).z = true ↔ r = 0x00) ∧ ((updateFlags r a b k).n = true ↔ r.getLsbD 7 = true) ∧
      (updateFlags r a b k).s = ((updateFlags r a b k).n ^^ (updateFlags r a b k).v)) ∧
    ((updateFlags r a b .add).c = true ↔ a.toNat + b.toNat > 255) ∧
    ((updateFlags r a b .sub).c = true ↔ a.toNat < b.toNat) ∧
    (updateFlags r a b .logic).c = false ∧
    ((updateFlags r a b .add).v = true ↔ a.getLsbD 7 = b.getLsbD 7 ∧ r.getLsbD 7 ≠ a.getLsbD 7) ∧
    ((updateFlags r a b .sub).v = true ↔ a.getLsbD 7 ≠ b.getLsbD 7 ∧ r.getLsbD 7 = b.getLsbD 7) ∧
    (updateFlags r a b .logic).v = false

/-- R113: the reduced path. -/
def Obligations.ReducedPathFlags : Prop :=
  ∀ r : Byte,
    ((flagsReduced r).z = true ↔ r = 0x00) ∧ (flagsReduced r).n = r.getLsbD 7 ∧
    (flagsReduced r).s = (flagsReduced r).n ∧ (flagsReduced r).c = false ∧ (flagsReduced r).v = false ∧
    flagsReduced r = flagsLogic r

/-- R114 (the spec's own inference): after an exact sum or difference, S is the true sign, V says that the exact
result does not fit, and a borrow excludes zero. -/
def Obligations.FlagsTellTheExactResult : Prop :=
  ∀ a b : Byte,
    ((flagsAdd a b (a + b)).s = true ↔ a.toInt + b.toInt < 0) ∧
    ((flagsAdd a b (a + b)).v = true ↔ a.toInt + b.toInt < -128 ∨ 127 < a.toInt + b.toInt) ∧
    ((flagsSub a b (a - b)).s = true ↔ a.toInt - b.toInt < 0) ∧
    ((flagsSub a b (a - b)).v = true ↔ a.toInt - b.toInt < -128 ∨ 127 < a.toInt - b.toInt) ∧
    ¬ ((flagsSub a b (a - b)).c = true ∧ (flagsSub a b (a - b)).z = true)

/-- R27 and R108 at the bit positions of decision D1, the spec's own choice (log entry 5): the packed byte. -/
def Obligations.PackedStatusByte : Prop :=
  ∀ F : Flags,
    F.pack.toNat = F.z.toNat + 2 * F.s.toNat + 4 * F.n.toNat + 8 * F.v.toNat + 16 * F.c.toNat ∧
    Flags.unpack F.pack = F

/-! The instructions: what each computes, what it leaves, and that it completes on every state. -/

/-- R120. ADD: encoding, result, Add flags from the old operands, and everything else as before; the word of
`ADD R0 R0` alone is 0x0000, and fetch takes that word as the end marker and hands on no instruction. -/
def Obligations.AddExecutes : Prop :=
  ∀ (rd rs : RegIdx) (s : State),
    encode (.add rd rs) = 0x0#4 ++ BitVec.ofNat 6 rd.val ++ BitVec.ofNat 6 rs.val ∧
    (encode (.add rd rs) = 0x0000 ↔ rd = 0 ∧ rs = 0) ∧
    (s.f.active = true → imemWord s s.pc.toNat = encode (.add 0 0) →
      fetchStage s = { s with f := { s.f with active := false }, eop := true }) ∧
    ∃ t, exec (.add rd rs) s = .next t ∧
      (readReg t rd).toNat = ((readReg s rd).toNat + (readReg s rs).toNat) % 256 ∧
      readReg t rd = trunc8 ((readReg s rd).toInt + (readReg s rs).toInt) ∧
      ((readFlags t).z = true ↔ readReg t rd = 0x00) ∧
      (readFlags t).n = (readReg t rd).getLsbD 7 ∧
      ((readFlags t).c = true ↔ (readReg s rd).toNat + (readReg s rs).toNat > 255) ∧
      ((readFlags t).v = true ↔ (readReg s rd).getLsbD 7 = (readReg s rs).getLsbD 7 ∧
        (readReg t rd).getLsbD 7 ≠ (readReg s rd).getLsbD 7) ∧
      (readFlags t).s = ((readFlags t).n ^^ (readFlags t).v) ∧
      t.sreg.extractLsb' 5 3 = 0 ∧
      SameRegsExcept rd s t ∧ SameDmem s t ∧ SameController s t ∧ NoEvent s t

/-- R121. SUB: encoding, result, Sub flags from the old operands, and everything else as before. -/
def Obligations.SubExecutes : Prop :=
  ∀ (rd rs : RegIdx) (s : State),
    encode (.sub rd rs) = 0x1#4 ++ BitVec.ofNat 6 rd.val ++ BitVec.ofNat 6 rs.val ∧
    ∃ t, exec (.sub rd rs) s = .next t ∧
      ((readReg t rd).toNat : Int) = ((readReg s rd).toNat - (readReg s rs).toNat : Int) % 256 ∧
      readReg t rd = trunc8 ((readReg s rd).toInt - (readReg s rs).toInt) ∧
      ((readFlags t).z = true ↔ readReg t rd = 0x00) ∧
      (readFlags t).n = (readReg t rd).getLsbD 7 ∧
      ((readFlags t).c = true ↔ (readReg s rd).toNat < (readReg s rs).toNat) ∧
      ((readFlags t).v = true ↔ (readReg s rd).getLsbD 7 ≠ (readReg s rs).getLsbD 7 ∧
        (readReg t rd).getLsbD 7 = (readReg s rs).getLsbD 7) ∧
      (readFlags t).s = ((readFlags t).n ^^ (readFlags t).v) ∧
      t.sreg.extractLsb' 5 3 = 0 ∧
      SameRegsExcept rd s t ∧ SameDmem s t ∧ SameController s t ∧ NoEvent s t

/-- R122. MUL: encoding, the low 8 bits of the product under either reading of the operands, reduced flags, and
everything else as before. -/
def Obligations.MulExecutes : Prop :=
  ∀ (rd rs : RegIdx) (s : State),
    encode (.mul rd rs) = 0x2#4 ++ BitVec.ofNat 6 rd.val ++ BitVec.ofNat 6 rs.val ∧
    ∃ t, exec (.mul rd rs) s = .next t ∧
      readReg t rd = trunc8 ((readReg s rd).toInt * (readReg s rs).toInt) ∧
      (readReg t rd).toNat = ((readReg s rd).toNat * (readReg s rs).toNat) % 256 ∧
      ((readFlags t).z = true ↔ readReg t rd = 0x00) ∧
      (readFlags t).n = (readReg t rd).getLsbD 7 ∧ (readFlags t).s = (readFlags t).n ∧
      (readFlags t).c = false ∧ (readFlags t).v = false ∧
      t.sreg.extractLsb' 5 3 = 0 ∧
      SameRegsExcept rd s t ∧ SameDmem s t ∧ SameController s t ∧ NoEvent s t

/-- R130. MOVI: encoding, the sign-extended immediate, no flag, and everything else as before. -/
def Obligations.MoviExecutes : Prop :=
  ∀ (rd : RegIdx) (imm : Field6) (s : State),
    encode (.movi rd imm) = 0x3#4 ++ BitVec.ofNat 6 rd.val ++ imm ∧
    ∃ t, exec (.movi rd imm) s = .next t ∧
      (readReg t rd).toInt = (if 32 ≤ imm.toNat then (imm.toNat : Int) - 64 else imm.toNat) ∧
      t.sreg = s.sreg ∧
      SameRegsExcept rd s t ∧ SameDmem s t ∧ SameController s t ∧ NoEvent s t

/-- R131. ANDI: encoding, bitwise AND with the sign-extended immediate, Logic flags, and everything else as before. -/
def Obligations.AndiExecutes : Prop :=
  ∀ (rd : RegIdx) (imm : Field6) (s : State),
    encode (.andi rd imm) = 0x5#4 ++ BitVec.ofNat 6 rd.val ++ imm ∧
    ∃ t, exec (.andi rd imm) s = .next t ∧
      readReg t rd =
        readReg s rd &&& (if imm.getLsbD 5 then imm.setWidth 8 ||| 0xC0#8 else imm.setWidth 8) ∧
      ((readFlags t).z = true ↔ readReg t rd = 0x00) ∧
      (readFlags t).n = (readReg t rd).getLsbD 7 ∧ (readFlags t).s = (readFlags t).n ∧
      (readFlags t).c = false ∧ (readFlags t).v = false ∧
      t.sreg.extractLsb' 5 3 = 0 ∧
      SameRegsExcept rd s t ∧ SameDmem s t ∧ SameController s t ∧ NoEvent s t

/-- R132. EOR: encoding, bitwise exclusive OR, Logic flags, and everything else as before. -/
def Obligations.EorExecutes : Prop :=
  ∀ (rd rs : RegIdx) (s : State),
    encode (.eor rd rs) = 0x6#4 ++ BitVec.ofNat 6 rd.val ++ BitVec.ofNat 6 rs.val ∧
    ∃ t, exec (.eor rd rs) s = .next t ∧
      readReg t rd = readReg s rd ^^^ readReg s rs ∧
      ((readFlags t).z = true ↔ readReg t rd = 0x00) ∧
      (readFlags t).n = (readReg t rd).getLsbD 7 ∧ (readFlags t).s = (readFlags t).n ∧
      (readFlags t).c = false ∧ (readFlags t).v = false ∧
      t.sreg.extractLsb' 5 3 = 0 ∧
      SameRegsExcept rd s t ∧ SameDmem s t ∧ SameController s t ∧ NoEvent s t

/-- R140 at every count, counts of 8 and more by decision D10, the spec's own choice (log entry 12). SAL. -/
def Obligations.SalExecutes : Prop :=
  ∀ (rd : RegIdx) (n : Field6) (s : State),
    encode (.sal rd n) = 0x8#4 ++ BitVec.ofNat 6 rd.val ++ n ∧
    ∃ t, exec (.sal rd n) s = .next t ∧
      (readReg t rd).toNat = ((readReg s rd).toNat * 2 ^ n.toNat) % 256 ∧
      (8 ≤ n.toNat → readReg t rd = 0x00) ∧
      ((readFlags t).z = true ↔ readReg t rd = 0x00) ∧
      (readFlags t).n = (readReg t rd).getLsbD 7 ∧ (readFlags t).s = (readFlags t).n ∧
      (readFlags t).c = false ∧ (readFlags t).v = false ∧
      t.sreg.extractLsb' 5 3 = 0 ∧
      SameRegsExcept rd s t ∧ SameDmem s t ∧ SameController s t ∧ NoEvent s t

/-- R141 at every count, counts of 8 and more by decision D10, the spec's own choice (log entry 12). SAR: the exact
quotient by 2^n rounded toward minus infinity, so the sign never changes. -/
def Obligations.SarExecutes : Prop :=
  ∀ (rd : RegIdx) (n : Field6) (s : State),
    encode (.sar rd n) = 0x9#4 ++ BitVec.ofNat 6 rd.val ++ n ∧
    ∃ t, exec (.sar rd n) s = .next t ∧
      (readReg t rd).toInt = Int.fdiv (readReg s rd).toInt (2 ^ n.toNat) ∧
      (8 ≤ n.toNat → readReg t rd = if (readReg s rd).toInt < 0 then 0xFF else 0x00) ∧
      ((readFlags t).z = true ↔ readReg t rd = 0x00) ∧
      (readFlags t).n = (readReg s rd).getLsbD 7 ∧ (readFlags t).s = (readFlags t).n ∧
      (readFlags t).c = false ∧ (readFlags t).v = false ∧
      t.sreg.extractLsb' 5 3 = 0 ∧
      SameRegsExcept rd s t ∧ SameDmem s t ∧ SameController s t ∧ NoEvent s t

/-- R150. BEQZ on a zero register posts a flush to its own address + 1 + the raw offset (the base is decision D8, the
spec's own choice, log entry 10), on any other register it does nothing at all; nothing else is written. -/
def Obligations.BeqzExecutes : Prop :=
  ∀ (rt : RegIdx) (off : Field6) (s : State),
    encode (.beqz rt off) = 0x4#4 ++ BitVec.ofNat 6 rt.val ++ off ∧
    (readReg s rt ≠ 0x00 → exec (.beqz rt off) s = .next s) ∧
    (readReg s rt = 0x00 → ∃ t, exec (.beqz rt off) s = .next t ∧
      t.flush = some (s.e.opc + 1 + off.setWidth 16) ∧ t.diags = s.diags ∧ t.sreg = s.sreg ∧
      SameRegs s t ∧ SameDmem s t ∧ SameController s t)

/-- R151. BR always posts a flush to the low 10 bits of (h << 6) OR l, both registers unsigned (the widening and the
masking are decision D9, the spec's own choice, log entry 11); nothing else is written. -/
def Obligations.BrExecutes : Prop :=
  ∀ (rh rl : RegIdx) (s : State),
    encode (.br rh rl) = 0x7#4 ++ BitVec.ofNat 6 rh.val ++ BitVec.ofNat 6 rl.val ∧
    ∃ (t : State) (target : PcAddr), exec (.br rh rl) s = .next t ∧
      t.flush = some target ∧
      target.toNat = (((readReg s rh).toNat <<< 6) ||| (readReg s rl).toNat) % 1024 ∧
      ((readReg s rl).toNat < 64 → target.toNat = 64 * ((readReg s rh).toNat % 16) + (readReg s rl).toNat) ∧
      t.diags = s.diags ∧ t.sreg = s.sreg ∧
      SameRegs s t ∧ SameDmem s t ∧ SameController s t

/-- R160. LDR: encoding, the whole cell at the folded address, no flag, and everything else as before. -/
def Obligations.LdrExecutes : Prop :=
  ∀ (rd : RegIdx) (imm : Field6) (s : State),
    encode (.ldr rd imm) = 0xA#4 ++ BitVec.ofNat 6 rd.val ++ imm ∧
    ∃ t, exec (.ldr rd imm) s = .next t ∧
      readReg t rd = dmemCell s (if 32 ≤ imm.toNat then 1984 + imm.toNat else imm.toNat) ∧
      t.sreg = s.sreg ∧
      SameRegsExcept rd s t ∧ SameDmem s t ∧ SameController s t ∧ NoEvent s t

/-- R161. STR: encoding, the register into the cell at the folded address (read back on data memory in canonical form,
an invariant that every step keeps), every other cell as before, no register and no flag written. -/
def Obligations.StrExecutes : Prop :=
  ∀ (rs : RegIdx) (imm : Field6) (s : State),
    encode (.str rs imm) = 0xB#4 ++ BitVec.ofNat 6 rs.val ++ imm ∧
    dataAddr imm = (if 32 ≤ imm.toNat then 1984 + imm.toNat else imm.toNat) ∧
    ∃ t, exec (.str rs imm) s = .next t ∧
      (s.dmem.wf Config.dmemCells = true → dmemCell t (dataAddr imm) = readReg s rs) ∧
      SameDmemExcept (dataAddr imm) s t ∧ t.sreg = s.sreg ∧
      SameRegs s t ∧ SameController s t ∧ NoEvent s t

/-- R79. A word whose op is 12 to 15 decodes to the unknown outcome, and that completes, emits one diagnostic event
and does nothing else; its r1 and r2 fields are ignored. -/
def Obligations.ReservedOpcodesOnlyReport : Prop :=
  ∀ (w : Word) (s : State), 12 ≤ w.toNat / 4096 →
    (∃ op r1 r2, decode w = .unknown op r1 r2) ∧
    (∀ op op' r1 r1' r2 r2', exec (.unknown op r1 r2) s = exec (.unknown op' r1' r2') s) ∧
    ∃ (t : State) (ev : Diagnostic), exec (decode w) s = .next t ∧ t.diags = s.diags ++ [ev] ∧
      t.flush = s.flush ∧ t.sreg = s.sreg ∧ SameRegs s t ∧ SameDmem s t ∧ SameController s t

/-- R181, the event's content by decision D19, the spec's own choice (log entry 14): the executing record's address
and word, in a state that is otherwise as before. -/
def Obligations.DiagnosticCarriesAddressAndWord : Prop :=
  ∀ (op : OpField) (r1 r2 : Field6) (s : State),
    exec (.unknown op r1 r2) s = .next { s with diags := s.diags ++ [.unknownOpcode s.e.opc s.e.word] }

/-! Data memory. -/

/-- R162: the data-address fold. -/
def Obligations.DataAddressFold : Prop :=
  (∀ a : Int, -2048 ≤ a → (wrap a : Int) = (2048 + a) % 2048) ∧
    ∀ a : Int, -32 ≤ a → a ≤ 31 → (wrap a : Int) = if 0 ≤ a then a else 2048 + a

/-- R58 (a): an LDR after an STR answers the stored value at the same cell, and at any other cell what was there. -/
def Obligations.LoadAnswersTheLastStore : Prop :=
  ∀ (rs rd : RegIdx) (imm imm' : Field6) (s : State), s.dmem.wf Config.dmemCells = true →
    ∃ t u, exec (.str rs imm) s = .next t ∧ exec (.ldr rd imm') t = .next u ∧
      readReg u rd = (if dataAddr imm' = dataAddr imm then readReg s rs else dmemCell s (dataAddr imm')) ∧
      (imm' = imm ↔ dataAddr imm' = dataAddr imm)

/-- R51 (the spec's own inference), over every step: cells 32 to 2015 never change. -/
def Obligations.StepsNeverWriteTheMiddleCells : Prop :=
  ∀ (s t : State) (a : Nat), step s = .next t → 32 ≤ a → a < 2016 → dmemCell t a = dmemCell s a

/-- R33, over every step: a data-memory cell changes only when no flush is pending and the execute record holds an
STR of that very cell, and then it is the register that the STR names. -/
def Obligations.OnlyAStoreWritesDataMemory : Prop :=
  ∀ (s t : State) (a : Nat), s.dmem.wf Config.dmemCells = true → step s = .next t → dmemCell t a ≠ dmemCell s a →
    s.flush = none ∧ s.e.active = true ∧
      ∃ rs imm, s.e.instr = .str rs imm ∧ dataAddr imm = a ∧ dmemCell t a = readReg s rs

/-! The sub-steps of a cycle. -/

/-- R203: a pending flush makes D and E Idle, sets `pc` and is cleared; F and `eop` stay by decision D11, the spec's
own choice (log entry 4); all else stays. With no request, nothing happens. -/
def Obligations.FlushDiscardsDecodeAndExecute : Prop :=
  ∀ s : State,
    (s.flush = none → flushStage Config.flushRearmsFetch s = s) ∧
    ∀ t, s.flush = some t →
      flushStage Config.flushRearmsFetch s =
        { s with d := { s.d with active := false }, e := { s.e with active := false }, pc := t, flush := none }

/-- R204: an active E runs the instruction its fields name, then is Idle; an idle E does nothing. No other sub-step
writes a register, data memory or `sreg`, and none but the flush clears the flush request. -/
def Obligations.ExecuteRunsAndRetires : Prop :=
  (∀ s : State, s.e.active = false → executeStage s = .next s) ∧
  (∀ s : State, s.e.active = true → ∃ t, exec (ofFields ⟨s.e.op, s.e.r1, s.e.r2⟩) s = .next t ∧
    executeStage s = .next { t with e := { s.e with active := false } }) ∧
  (∀ (s : State) (rearm : Bool), SameRegs s (flushStage rearm s) ∧ SameDmem s (flushStage rearm s) ∧
    (flushStage rearm s).sreg = s.sreg ∧ (flushStage rearm s).flush = none) ∧
  (∀ s : State, SameRegs s (fetchStage (decodeStage s)) ∧ SameDmem s (fetchStage (decodeStage s)) ∧
    (fetchStage (decodeStage s)).sreg = s.sreg ∧ (fetchStage (decodeStage s)).flush = s.flush)

/-- R205: an active D moves to E with its word decoded and becomes Idle; an idle D does nothing. -/
def Obligations.DecodeMovesTheWord : Prop :=
  ∀ s : State,
    (s.d.active = false → decodeStage s = s) ∧
    (s.d.active = true →
      ∃ t, decodeStage s = t ∧ t.e.active = true ∧ t.e.word = s.d.word ∧ t.e.opc = s.d.opc ∧ t.e.Decoded ∧
        t.d.active = false ∧ { t with d := s.d, e := s.e } = s)

/-- R206: while enabled, fetch ends the program out of range or at the zero word, `pc` unchanged; else it brings the
word at `pc` into D, copies word and address into F, and advances `pc`. Disabled, it does nothing. -/
def Obligations.FetchRule : Prop :=
  ∀ s : State,
    (s.f.active = false → fetchStage s = s) ∧
    (s.f.active = true → 1024 ≤ s.pc.toNat ∨ imemWord s s.pc.toNat = 0x0000 →
      fetchStage s = { s with f := { s.f with active := false }, eop := true }) ∧
    (s.f.active = true → s.pc.toNat < 1024 → imemWord s s.pc.toNat ≠ 0x0000 →
      ∃ t, fetchStage s = t ∧
        t.d.active = true ∧ t.d.word = imemWord s s.pc.toNat ∧ t.d.opc = s.pc ∧ t.d.Decoded ∧
        t.f.active = true ∧ t.f.word = imemWord s s.pc.toNat ∧ t.f.opc = s.pc ∧
        t.pc.toNat = s.pc.toNat + 1 ∧ { t with d := s.d, f := s.f, pc := s.pc } = s)

/-- R207 and R39: Halted, Draining and Running as functions of the other state; a pending flush does not prevent
Halted (decision D11, the spec's own choice, log entry 4). -/
def Obligations.HaltCheckAndControllerState : Prop :=
  ∀ s : State,
    (halted s = true ↔ s.eop = true ∧ s.f.active = false ∧ s.d.active = false ∧ s.e.active = false) ∧
    (controllerState s = .halted ↔ halted s = true) ∧
    (controllerState s = .running ↔ s.eop = false) ∧
    (s.eop = !s.f.active →
      (controllerState s = .draining ↔ s.eop = true ∧ (s.d.active = true ∨ s.e.active = true)))

/-! The step. -/

/-- R202 to R206: with no flush pending and a decoded instruction in the execute record, a step is that instruction's
effect, then E Idle, then decode, then fetch. -/
def Obligations.StepRunsTheDecodedInstruction : Prop :=
  ∀ (s : State) (i : Instr), s.flush = none → s.e.active = true → s.e.Decoded → decode s.e.word = i →
    ∃ t, exec i { s with cycles := s.cycles + 1 } = .next t ∧
      step s = .next (fetchStage (decodeStage { t with e := { t.e with active := false } }))

/-- R203 and R213: with a flush pending, a step executes nothing; it discards D and E, goes on at the target and
fetches there if fetch is still enabled (that the flush itself does not enable it is decision D11, the spec's own
choice, log entry 4). -/
def Obligations.FlushCycleExecutesNothing : Prop :=
  ∀ (s : State) (t : PcAddr), s.flush = some t → halted s = false →
    step s = .next (fetchStage
      { s with cycles := s.cycles + 1, d := { s.d with active := false }, e := { s.e with active := false }, pc := t,
               flush := none })

/-- R202 and R211: with nothing in E and no flush pending, a step only decodes and fetches. -/
def Obligations.BubbleCycleExecutesNothing : Prop :=
  ∀ s : State, s.flush = none → s.e.active = false → halted s = false →
    step s = .next (fetchStage (decodeStage { s with cycles := s.cycles + 1 }))

/-- R180: no step faults and none is refused, from any state whatever (that a step at Halted answers a state at all is
the model's choice, log entry 2). -/
def Obligations.NoStepFails : Prop :=
  ∀ s : State, ∃ t, step s = .next t

/-- R208: a cycle adds 1 to the cycle counter. -/
def Obligations.EachCycleIsCounted : Prop :=
  ∀ s t : State, halted s = false → step s = .next t → t.cycles = s.cycles + 1

/-- R191 and R209: Halted is final and keeps all state. That a step at Halted answers the same state is the model's
choice (log entry 2). -/
def Obligations.HaltedIsFinal : Prop :=
  ∀ s : State, halted s = true → step s = .next s

/-- From R24: `pc` changes by a consumed flush and by a successful fetch, and by nothing else: no instruction writes it,
and a fetch that finds the end marker or finds `pc` out of range leaves it. That a flush consumed while fetch is off
starts no fetch is decision D11, the spec's own choice (log entry 4). What a taken BEQZ and a BR post instead is in
BeqzExecutes and BrExecutes. -/
def Obligations.PcChangesInTwoPlaces : Prop :=
  (∀ s t : State, halted s = false → step s = .next t →
    ∃ base, base = s.flush.getD s.pc ∧
      t.pc = if s.f.active = true ∧ base.toNat < 1024 ∧ imemWord s base.toNat ≠ 0x0000 then base + 1 else base) ∧
  ∀ (i : Instr) (s t : State), exec i s = .next t → t.pc = s.pc

/-- R61: no step changes instruction memory. -/
def Obligations.InstructionMemoryIsReadOnly : Prop :=
  ∀ s t : State, step s = .next t → t.imem = s.imem ∧ ∀ a, imemWord t a = imemWord s a

/-- R29, over every step: the status register changes only by an ADD, SUB, MUL, ANDI, EOR, SAL or SAR that executes. -/
def Obligations.StatusRegisterWriters : Prop :=
  ∀ s t : State, step s = .next t → t.sreg ≠ s.sreg →
    s.flush = none ∧ s.e.active = true ∧ s.e.op ∈ ([0, 1, 2, 5, 6, 8, 9] : List OpField)

/-- R21, over every step: a register changes only by an ADD, SUB, MUL, MOVI, ANDI, EOR, SAL, SAR or LDR that executes
and names it in its r1 field. -/
def Obligations.RegisterWriters : Prop :=
  ∀ (s t : State) (j : RegIdx), step s = .next t → readReg t j ≠ readReg s j →
    s.flush = none ∧ s.e.active = true ∧ s.e.op ∈ ([0, 1, 2, 3, 5, 6, 8, 9, 10] : List OpField) ∧
      regOf s.e.r1 = j

/-! Invariants. -/

/-- The invariant of the reachable states holds at reset (values of R42 to R49; log entries 7 and 8). -/
def Obligations.ResetSatisfiesTheInvariant : Prop := CoreInv State.reset

/-- Every step keeps the invariant: canonical memories (R50), `sreg` bits 7:5 zero (R27), `pc` and pending targets at
most 1087 (R26, R153), fetch enabled until end-of-program (R35, R38), records decoded and live (R36, R80), and their
places behind `pc` (R206, R212). Much of it is the spec's own inference; F's decoded fields are the model's choice (log
entry 9). -/
def Obligations.EveryStepKeepsTheInvariant : Prop :=
  ∀ s t : State, CoreInv s → step s = .next t → CoreInv t

/-- R42 to R49, the values the spec decides (D3 to D7) and those of the source; what the idle records hold is the
model's choice (log entry 8) and not stated. -/
def Obligations.ResetValues : Prop :=
  (∀ j, readReg State.reset j = 0x00) ∧ (∀ a, dmemCell State.reset a = 0x00) ∧
  (∀ a, imemWord State.reset a = 0x0000) ∧ State.reset.pc = 0 ∧ State.reset.sreg = 0x00 ∧
  State.reset.f.active = true ∧ State.reset.d.active = false ∧ State.reset.e.active = false ∧
  State.reset.flush = none ∧ State.reset.eop = false ∧ State.reset.cycles = 0 ∧ State.reset.diags = [] ∧
  controllerState State.reset = .running

/-- R201 and R220: with nothing loaded the first fetch ends the program and the core halts after 1 cycle. -/
def Obligations.EmptyCoreHaltsAfterOneCycle : Prop :=
  ∃ t, step State.reset = .next t ∧ halted t = true ∧ t.cycles = 1 ∧ t.pc = 0 ∧ t.eop = true

/-- R44, R182 and R192: a load of 1 to 1024 words puts word i at address i and 0 after them, and changes nothing else;
no word is a load failure. Into a memory with nothing loaded the zeros are decision D7, the spec's own choice (log
entry 7); that a load puts them over words that stood there before is the model's choice (log entry 18). -/
def Obligations.LoadFillsInstructionMemory : Prop :=
  ∀ (o : LoaderOverflow) (ws : List Word) (s : State),
    (ws = [] → loadProgram o ws s = none) ∧
    (ws ≠ [] → ws.length ≤ 1024 → ∃ t, loadProgram o ws s = some t ∧
      (∀ a, imemWord t a = (ws[a]?).getD 0x0000) ∧ t.imem.wf Config.imemWords = true ∧
      { t with imem := s.imem } = s)

/-! Timing, hazards and the pipeline as a whole. -/

/-- R212 (the spec's own inference): a word fetched in one cycle, with no flush posted meanwhile, is in the execute
record two cycles later, at its own address. -/
def Obligations.FetchToExecuteLatency : Prop :=
  ∀ s t u : State, s.flush = none → s.f.active = true → s.pc.toNat < 1024 → imemWord s s.pc.toNat ≠ 0x0000 →
    step s = .next t → t.flush = none → step t = .next u →
    u.e.active = true ∧ u.e.opc = s.pc ∧ u.e.word = imemWord s s.pc.toNat ∧ u.e.instr = decode (imemWord s s.pc.toNat)

/-- R204 to R206 and R58 (b): in a reachable state, an instruction that posts no flush is followed in the next cycle by
the word at the next address, if that word was fetched. -/
def Obligations.NextWordExecutesNext : Prop :=
  ∀ s t : State, CoreInv s → s.flush = none → s.e.active = true → s.d.active = true → step s = .next t →
    t.flush = none →
    t.e.active = true ∧ t.e.opc.toNat = s.e.opc.toNat + 1 ∧ t.e.word = imemWord s (s.e.opc.toNat + 1) ∧
      t.e.instr = decode (imemWord s (s.e.opc.toNat + 1))

/-- R213 (the spec's own inference): when the instruction in E posts a flush to a target that can be fetched, and
fetch is still enabled after that cycle, the next two cycles execute nothing and then the target is in E, ready to
execute in the third cycle after. -/
def Obligations.TakenBranchCostsTwoBubbles : Prop :=
  ∀ (s s1 : State) (t : PcAddr), s.flush = none → step s = .next s1 → s1.flush = some t → s1.f.active = true →
    t.toNat < 1024 → imemWord s t.toNat ≠ 0x0000 →
    ∃ s2 s3, step s1 = .next s2 ∧ step s2 = .next s3 ∧
      s2.e.active = false ∧ s2.flush = none ∧ s3.flush = none ∧
      s2.regs = s1.regs ∧ s2.dmem = s1.dmem ∧ s2.sreg = s1.sreg ∧ s2.diags = s1.diags ∧
      s3.e.active = true ∧ s3.e.opc = t ∧ s3.e.word = imemWord s t.toNat ∧ s3.e.Decoded ∧
      s3.regs = s1.regs ∧ s3.dmem = s1.dmem ∧ s3.sreg = s1.sreg ∧ s3.diags = s1.diags ∧
      s3.cycles = s.cycles + 3

/-- R216 (the spec's own inference, at FLUSH_REARMS_FETCH = false, decision D11, log entry 4): an end of program in a
branch's shadow halts the core before the target is fetched. First the word after the branch missing: the core halts
in the branch's cycle with the flush pending. Then the second word missing: it halts one cycle later, at the target. -/
def Obligations.EndMarkerInTheShadowHalts : Prop :=
  ∀ (s s1 : State) (t : PcAddr), s.flush = none → s.e.active = true → step s = .next s1 → s1.flush = some t →
    (s.eop = true → s.f.active = false → s.d.active = false →
      halted s1 = true ∧ s1.pc = s.pc ∧ s1.cycles = s.cycles + 1) ∧
    (s.f.active = true → s.d.active = true → 1024 ≤ s.pc.toNat ∨ imemWord s s.pc.toNat = 0x0000 →
      halted s1 = false ∧ ∃ s2, step s1 = .next s2 ∧ halted s2 = true ∧ s2.pc = t ∧ s2.flush = none ∧
        s2.regs = s1.regs ∧ s2.dmem = s1.dmem ∧ s2.cycles = s.cycles + 2)

/-- R210: the parameter FLUSH_REARMS_FETCH makes no difference to a step unless a flush is pending after
end-of-program. -/
def Obligations.RearmMattersOnlyAfterEndOfProgram : Prop :=
  ∀ s : State, (s.flush = none ∨ (s.f.active = true ∧ s.eop = false)) → stepWith true s = stepWith false s

/-- R26, R153 and R155: from an existing address BEQZ targets lie 1 to 64 words ahead and at most at 1087, and BR
targets, formed by decision D9 (log entry 11), at 0 to 1023. -/
def Obligations.BranchTargetsInRange : Prop :=
  (∀ (opc : PcAddr) (off : Field6), opc.toNat < 1024 →
    (beqzTarget opc off).toNat = opc.toNat + 1 + off.toNat ∧ opc.toNat < (beqzTarget opc off).toNat ∧
    (beqzTarget opc off).toNat ≤ 1087) ∧
  ∀ h l : Byte, (brTarget h l).toNat ≤ 1023

/-- R29, R40 and R181 (no instruction reads a flag, the cycle counter or an event): two states that agree on all the
rest step to states that agree on all the rest. -/
def Obligations.FlagsCyclesAndEventsAreWriteOnly : Prop :=
  ∀ (s s' : State) (b : Byte) (n : Nat) (ev : List Diagnostic), step s = .next s' →
    ∃ (b' : Byte) (n' : Nat) (ev' : List Diagnostic),
      step { s with sreg := b, cycles := n, diags := ev } = .next { s' with sreg := b', cycles := n', diags := ev' }

/-- R34 and R35: what an idle D or E holds, and what F holds beside its enable, is read by no rule: two states that
differ in nothing else step to states that differ in nothing else. -/
def Obligations.IdleContentsAreNeverRead : Prop :=
  ∀ (s s' : State) (f d e : StageRecord), step s = .next s' →
    f.active = s.f.active → d.active = s.d.active → (d.active = true → d = s.d) →
    e.active = s.e.active → (e.active = true → e = s.e) →
    ∃ f' d' e' : StageRecord, step { s with f := f, d := d, e := e } = .next { s' with f := f', d := d', e := e' } ∧
      f'.active = s'.f.active ∧ d'.active = s'.d.active ∧ (d'.active = true → d' = s'.d) ∧
      e'.active = s'.e.active ∧ (e'.active = true → e' = s'.e)

/-- R208, R209 and decision D28: a run under fuel reports a Halted state or, when the fuel runs out, a state that is
not Halted, after that many cycles; it never reports a fault or a refusal. That the host's own `run` answers that same
Halted state, however much fuel is left, rests on a step at Halted answering the same state, the model's choice (log
entry 2). -/
def Obligations.RunUnderFuelReports : Prop :=
  ∀ (k : Nat) (s : State),
    (∃ t, runFor k s = .halted t ∧ halted t = true ∧ t.cycles ≤ s.cycles + k ∧
        Sys2Proof.core.run k s = .next t) ∨
      (∃ t, runFor k s = .notHalted t ∧ halted t = false ∧ t.cycles = s.cycles + k ∧
        Sys2Proof.core.run k s = .next t)
end

