-- ==== Sys2Proof/Laws/PerInstr.lean ====
section
/-! SUPPORT. A statement made per instruction: the opcode map read back from an instruction's fields gives the
instruction (30_encoding.md R73, R78). With the field codec's own round trip it gives decode of encode. -/

namespace Sys2Proof

@[simp] theorem regOf_regBits (i : RegIdx) : regOf (regBits i) = i := by
  apply Fin.ext
  have := i.isLt
  simp only [regOf, regBits, BitVec.toNat_ofNat]
  omega

@[simp] theorem regBits_regOf (r : Field6) : regBits (regOf r) = r := by
  simp [regOf, regBits]

namespace Laws

/-- The fields of a well-formed instruction select that instruction. -/
def FieldsRoundTrip.Statement (i : Instr) : Prop := i.WellFormed → ofFields (toFields i) = i

theorem FieldsRoundTrip.add (rd rs : RegIdx) : FieldsRoundTrip.Statement (.add rd rs) := by
  intro _; simp [toFields, ofFields]
theorem FieldsRoundTrip.sub (rd rs : RegIdx) : FieldsRoundTrip.Statement (.sub rd rs) := by
  intro _; simp [toFields, ofFields]
theorem FieldsRoundTrip.mul (rd rs : RegIdx) : FieldsRoundTrip.Statement (.mul rd rs) := by
  intro _; simp [toFields, ofFields]
theorem FieldsRoundTrip.movi (rd : RegIdx) (imm : Field6) : FieldsRoundTrip.Statement (.movi rd imm) := by
  intro _; simp [toFields, ofFields]
theorem FieldsRoundTrip.beqz (rt : RegIdx) (off : Field6) : FieldsRoundTrip.Statement (.beqz rt off) := by
  intro _; simp [toFields, ofFields]
theorem FieldsRoundTrip.andi (rd : RegIdx) (imm : Field6) : FieldsRoundTrip.Statement (.andi rd imm) := by
  intro _; simp [toFields, ofFields]
theorem FieldsRoundTrip.eor (rd rs : RegIdx) : FieldsRoundTrip.Statement (.eor rd rs) := by
  intro _; simp [toFields, ofFields]
theorem FieldsRoundTrip.br (rh rl : RegIdx) : FieldsRoundTrip.Statement (.br rh rl) := by
  intro _; simp [toFields, ofFields]
theorem FieldsRoundTrip.sal (rd : RegIdx) (n : Field6) : FieldsRoundTrip.Statement (.sal rd n) := by
  intro _; simp [toFields, ofFields]
theorem FieldsRoundTrip.sar (rd : RegIdx) (n : Field6) : FieldsRoundTrip.Statement (.sar rd n) := by
  intro _; simp [toFields, ofFields]
theorem FieldsRoundTrip.ldr (rd : RegIdx) (imm : Field6) : FieldsRoundTrip.Statement (.ldr rd imm) := by
  intro _; simp [toFields, ofFields]
theorem FieldsRoundTrip.str (rs : RegIdx) (imm : Field6) : FieldsRoundTrip.Statement (.str rs imm) := by
  intro _; simp [toFields, ofFields]
theorem FieldsRoundTrip.unknown (op : OpField) (r1 r2 : Field6) : FieldsRoundTrip.Statement (.unknown op r1 r2) := by
  intro h
  have h' : 12 ≤ op.toNat := h
  have hlt := op.isLt
  have hop : op.toNat = 12 ∨ op.toNat = 13 ∨ op.toNat = 14 ∨ op.toNat = 15 := by omega
  rcases hop with h | h | h | h <;> simp [toFields, ofFields, h]

end Laws

end Sys2Proof
end

