-- ==== Sys2Proof/Laws/Codec.lean ====
section
/-! SUPPORT. A word as the number its fields make, and the layout of R71 as a concatenation. -/

namespace Sys2Proof

/-- The concatenation op ++ r1 ++ r2 as a number (30_encoding.md R71). -/
theorem toNat_layout (op : OpField) (r1 r2 : Field6) :
    BitVec.toNat (w := 16) (op ++ r1 ++ r2) = op.toNat * 4096 + r1.toNat * 64 + r2.toNat := by
  have h1 := r1.isLt
  have h2 := r2.isLt
  have e : BitVec.toNat (w := 16) (op ++ r1 ++ r2) = (op.toNat <<< 6 ||| r1.toNat) <<< 6 ||| r2.toNat :=
    (BitVec.toNat_append (op ++ r1) r2).trans (by rw [BitVec.toNat_append])
  rw [e, ← Nat.shiftLeft_add_eq_or_of_lt h1, ← Nat.shiftLeft_add_eq_or_of_lt h2]
  simp only [Nat.shiftLeft_eq]
  omega

/-- The fields of a word as numbers. -/
theorem decodeFields_toNat (w : Word) :
    (decodeFields w).op.toNat = w.toNat / 4096 ∧ (decodeFields w).r1.toNat = w.toNat / 64 % 64 ∧
      (decodeFields w).r2.toNat = w.toNat % 64 := by
  have h := w.isLt
  refine ⟨?_, ?_, ?_⟩
  · simp only [decodeFields, BitVec.extractLsb'_toNat, Nat.shiftRight_eq_div_pow]
    omega
  · simp only [decodeFields, BitVec.extractLsb'_toNat, Nat.shiftRight_eq_div_pow]
  · simp only [decodeFields, BitVec.extractLsb'_toNat, Nat.shiftRight_eq_div_pow]
    omega

/-- The concatenation has the fields it is made of. -/
theorem decodeFields_layout (op : OpField) (r1 r2 : Field6) : decodeFields (op ++ r1 ++ r2) = ⟨op, r1, r2⟩ := by
  have h1 := r1.isLt
  have h2 := r2.isLt
  obtain ⟨e0, e1, e2⟩ := decodeFields_toNat (op ++ r1 ++ r2)
  have hw := toNat_layout op r1 r2
  rw [hw] at e0 e1 e2
  have f0 : (decodeFields (op ++ r1 ++ r2)).op = op := BitVec.eq_of_toNat_eq (by omega)
  have f1 : (decodeFields (op ++ r1 ++ r2)).r1 = r1 := BitVec.eq_of_toNat_eq (by omega)
  have f2 : (decodeFields (op ++ r1 ++ r2)).r2 = r2 := BitVec.eq_of_toNat_eq (by omega)
  exact congr (congr (congrArg Fields.mk f0) f1) f2

end Sys2Proof
end

