-- ==== Sys2Proof/Laws/State.lean ====
section
/-! SUPPORT. One lemma per field per named update of State, so that no later proof unfolds a record update; then
what the register, flag and memory readers answer after an update. -/

namespace Sys2Proof.Machine

@[simp] theorem writeReg_regs (s : State) (i : RegIdx) (v : Byte) : (writeReg s i v).regs = s.regs.set i v := rfl
@[simp] theorem writeReg_pc (s : State) (i : RegIdx) (v : Byte) : (writeReg s i v).pc = s.pc := rfl
@[simp] theorem writeReg_sreg (s : State) (i : RegIdx) (v : Byte) : (writeReg s i v).sreg = s.sreg := rfl
@[simp] theorem writeReg_imem (s : State) (i : RegIdx) (v : Byte) : (writeReg s i v).imem = s.imem := rfl
@[simp] theorem writeReg_dmem (s : State) (i : RegIdx) (v : Byte) : (writeReg s i v).dmem = s.dmem := rfl
@[simp] theorem writeReg_f (s : State) (i : RegIdx) (v : Byte) : (writeReg s i v).f = s.f := rfl
@[simp] theorem writeReg_d (s : State) (i : RegIdx) (v : Byte) : (writeReg s i v).d = s.d := rfl
@[simp] theorem writeReg_e (s : State) (i : RegIdx) (v : Byte) : (writeReg s i v).e = s.e := rfl
@[simp] theorem writeReg_flush (s : State) (i : RegIdx) (v : Byte) : (writeReg s i v).flush = s.flush := rfl
@[simp] theorem writeReg_eop (s : State) (i : RegIdx) (v : Byte) : (writeReg s i v).eop = s.eop := rfl
@[simp] theorem writeReg_cycles (s : State) (i : RegIdx) (v : Byte) : (writeReg s i v).cycles = s.cycles := rfl
@[simp] theorem writeReg_diags (s : State) (i : RegIdx) (v : Byte) : (writeReg s i v).diags = s.diags := rfl

@[simp] theorem writeFlags_regs (s : State) (F : Flags) : (writeFlags s F).regs = s.regs := rfl
@[simp] theorem writeFlags_pc (s : State) (F : Flags) : (writeFlags s F).pc = s.pc := rfl
@[simp] theorem writeFlags_sreg (s : State) (F : Flags) : (writeFlags s F).sreg = F.pack := rfl
@[simp] theorem writeFlags_imem (s : State) (F : Flags) : (writeFlags s F).imem = s.imem := rfl
@[simp] theorem writeFlags_dmem (s : State) (F : Flags) : (writeFlags s F).dmem = s.dmem := rfl
@[simp] theorem writeFlags_f (s : State) (F : Flags) : (writeFlags s F).f = s.f := rfl
@[simp] theorem writeFlags_d (s : State) (F : Flags) : (writeFlags s F).d = s.d := rfl
@[simp] theorem writeFlags_e (s : State) (F : Flags) : (writeFlags s F).e = s.e := rfl
@[simp] theorem writeFlags_flush (s : State) (F : Flags) : (writeFlags s F).flush = s.flush := rfl
@[simp] theorem writeFlags_eop (s : State) (F : Flags) : (writeFlags s F).eop = s.eop := rfl
@[simp] theorem writeFlags_cycles (s : State) (F : Flags) : (writeFlags s F).cycles = s.cycles := rfl
@[simp] theorem writeFlags_diags (s : State) (F : Flags) : (writeFlags s F).diags = s.diags := rfl

@[simp] theorem writeResult_regs (s : State) (i : RegIdx) (v : Byte) (F : Flags) : (writeResult s i v F).regs = s.regs.set i v := rfl
@[simp] theorem writeResult_pc (s : State) (i : RegIdx) (v : Byte) (F : Flags) : (writeResult s i v F).pc = s.pc := rfl
@[simp] theorem writeResult_sreg (s : State) (i : RegIdx) (v : Byte) (F : Flags) : (writeResult s i v F).sreg = F.pack := rfl
@[simp] theorem writeResult_imem (s : State) (i : RegIdx) (v : Byte) (F : Flags) : (writeResult s i v F).imem = s.imem := rfl
@[simp] theorem writeResult_dmem (s : State) (i : RegIdx) (v : Byte) (F : Flags) : (writeResult s i v F).dmem = s.dmem := rfl
@[simp] theorem writeResult_f (s : State) (i : RegIdx) (v : Byte) (F : Flags) : (writeResult s i v F).f = s.f := rfl
@[simp] theorem writeResult_d (s : State) (i : RegIdx) (v : Byte) (F : Flags) : (writeResult s i v F).d = s.d := rfl
@[simp] theorem writeResult_e (s : State) (i : RegIdx) (v : Byte) (F : Flags) : (writeResult s i v F).e = s.e := rfl
@[simp] theorem writeResult_flush (s : State) (i : RegIdx) (v : Byte) (F : Flags) : (writeResult s i v F).flush = s.flush := rfl
@[simp] theorem writeResult_eop (s : State) (i : RegIdx) (v : Byte) (F : Flags) : (writeResult s i v F).eop = s.eop := rfl
@[simp] theorem writeResult_cycles (s : State) (i : RegIdx) (v : Byte) (F : Flags) : (writeResult s i v F).cycles = s.cycles := rfl
@[simp] theorem writeResult_diags (s : State) (i : RegIdx) (v : Byte) (F : Flags) : (writeResult s i v F).diags = s.diags := rfl

@[simp] theorem writeCell_regs (s : State) (a : Nat) (v : Byte) : (writeCell s a v).regs = s.regs := rfl
@[simp] theorem writeCell_pc (s : State) (a : Nat) (v : Byte) : (writeCell s a v).pc = s.pc := rfl
@[simp] theorem writeCell_sreg (s : State) (a : Nat) (v : Byte) : (writeCell s a v).sreg = s.sreg := rfl
@[simp] theorem writeCell_imem (s : State) (a : Nat) (v : Byte) : (writeCell s a v).imem = s.imem := rfl
@[simp] theorem writeCell_dmem (s : State) (a : Nat) (v : Byte) : (writeCell s a v).dmem = s.dmem.write a v := rfl
@[simp] theorem writeCell_f (s : State) (a : Nat) (v : Byte) : (writeCell s a v).f = s.f := rfl
@[simp] theorem writeCell_d (s : State) (a : Nat) (v : Byte) : (writeCell s a v).d = s.d := rfl
@[simp] theorem writeCell_e (s : State) (a : Nat) (v : Byte) : (writeCell s a v).e = s.e := rfl
@[simp] theorem writeCell_flush (s : State) (a : Nat) (v : Byte) : (writeCell s a v).flush = s.flush := rfl
@[simp] theorem writeCell_eop (s : State) (a : Nat) (v : Byte) : (writeCell s a v).eop = s.eop := rfl
@[simp] theorem writeCell_cycles (s : State) (a : Nat) (v : Byte) : (writeCell s a v).cycles = s.cycles := rfl
@[simp] theorem writeCell_diags (s : State) (a : Nat) (v : Byte) : (writeCell s a v).diags = s.diags := rfl

@[simp] theorem requestFlush_regs (s : State) (t : PcAddr) : (requestFlush s t).regs = s.regs := rfl
@[simp] theorem requestFlush_pc (s : State) (t : PcAddr) : (requestFlush s t).pc = s.pc := rfl
@[simp] theorem requestFlush_sreg (s : State) (t : PcAddr) : (requestFlush s t).sreg = s.sreg := rfl
@[simp] theorem requestFlush_imem (s : State) (t : PcAddr) : (requestFlush s t).imem = s.imem := rfl
@[simp] theorem requestFlush_dmem (s : State) (t : PcAddr) : (requestFlush s t).dmem = s.dmem := rfl
@[simp] theorem requestFlush_f (s : State) (t : PcAddr) : (requestFlush s t).f = s.f := rfl
@[simp] theorem requestFlush_d (s : State) (t : PcAddr) : (requestFlush s t).d = s.d := rfl
@[simp] theorem requestFlush_e (s : State) (t : PcAddr) : (requestFlush s t).e = s.e := rfl
@[simp] theorem requestFlush_flush (s : State) (t : PcAddr) : (requestFlush s t).flush = some t := rfl
@[simp] theorem requestFlush_eop (s : State) (t : PcAddr) : (requestFlush s t).eop = s.eop := rfl
@[simp] theorem requestFlush_cycles (s : State) (t : PcAddr) : (requestFlush s t).cycles = s.cycles := rfl
@[simp] theorem requestFlush_diags (s : State) (t : PcAddr) : (requestFlush s t).diags = s.diags := rfl

@[simp] theorem emitDiag_regs (s : State) (p : PcAddr) (w : Word) : (emitDiag s p w).regs = s.regs := rfl
@[simp] theorem emitDiag_pc (s : State) (p : PcAddr) (w : Word) : (emitDiag s p w).pc = s.pc := rfl
@[simp] theorem emitDiag_sreg (s : State) (p : PcAddr) (w : Word) : (emitDiag s p w).sreg = s.sreg := rfl
@[simp] theorem emitDiag_imem (s : State) (p : PcAddr) (w : Word) : (emitDiag s p w).imem = s.imem := rfl
@[simp] theorem emitDiag_dmem (s : State) (p : PcAddr) (w : Word) : (emitDiag s p w).dmem = s.dmem := rfl
@[simp] theorem emitDiag_f (s : State) (p : PcAddr) (w : Word) : (emitDiag s p w).f = s.f := rfl
@[simp] theorem emitDiag_d (s : State) (p : PcAddr) (w : Word) : (emitDiag s p w).d = s.d := rfl
@[simp] theorem emitDiag_e (s : State) (p : PcAddr) (w : Word) : (emitDiag s p w).e = s.e := rfl
@[simp] theorem emitDiag_flush (s : State) (p : PcAddr) (w : Word) : (emitDiag s p w).flush = s.flush := rfl
@[simp] theorem emitDiag_eop (s : State) (p : PcAddr) (w : Word) : (emitDiag s p w).eop = s.eop := rfl
@[simp] theorem emitDiag_cycles (s : State) (p : PcAddr) (w : Word) : (emitDiag s p w).cycles = s.cycles := rfl
@[simp] theorem emitDiag_diags (s : State) (p : PcAddr) (w : Word) : (emitDiag s p w).diags = s.diags ++ [.unknownOpcode p w] := rfl

@[simp] theorem retire_regs (s : State) : (retire s).regs = s.regs := rfl
@[simp] theorem retire_pc (s : State) : (retire s).pc = s.pc := rfl
@[simp] theorem retire_sreg (s : State) : (retire s).sreg = s.sreg := rfl
@[simp] theorem retire_imem (s : State) : (retire s).imem = s.imem := rfl
@[simp] theorem retire_dmem (s : State) : (retire s).dmem = s.dmem := rfl
@[simp] theorem retire_f (s : State) : (retire s).f = s.f := rfl
@[simp] theorem retire_d (s : State) : (retire s).d = s.d := rfl
@[simp] theorem retire_e (s : State) : (retire s).e = s.e.idle := rfl
@[simp] theorem retire_flush (s : State) : (retire s).flush = s.flush := rfl
@[simp] theorem retire_eop (s : State) : (retire s).eop = s.eop := rfl
@[simp] theorem retire_cycles (s : State) : (retire s).cycles = s.cycles := rfl
@[simp] theorem retire_diags (s : State) : (retire s).diags = s.diags := rfl

@[simp] theorem countCycle_regs (s : State) : (countCycle s).regs = s.regs := rfl
@[simp] theorem countCycle_pc (s : State) : (countCycle s).pc = s.pc := rfl
@[simp] theorem countCycle_sreg (s : State) : (countCycle s).sreg = s.sreg := rfl
@[simp] theorem countCycle_imem (s : State) : (countCycle s).imem = s.imem := rfl
@[simp] theorem countCycle_dmem (s : State) : (countCycle s).dmem = s.dmem := rfl
@[simp] theorem countCycle_f (s : State) : (countCycle s).f = s.f := rfl
@[simp] theorem countCycle_d (s : State) : (countCycle s).d = s.d := rfl
@[simp] theorem countCycle_e (s : State) : (countCycle s).e = s.e := rfl
@[simp] theorem countCycle_flush (s : State) : (countCycle s).flush = s.flush := rfl
@[simp] theorem countCycle_eop (s : State) : (countCycle s).eop = s.eop := rfl
@[simp] theorem countCycle_cycles (s : State) : (countCycle s).cycles = s.cycles + 1 := rfl
@[simp] theorem countCycle_diags (s : State) : (countCycle s).diags = s.diags := rfl

@[simp] theorem StageRecord.idle_word (r : StageRecord) : r.idle.word = r.word := rfl
@[simp] theorem StageRecord.idle_opc (r : StageRecord) : r.idle.opc = r.opc := rfl
@[simp] theorem StageRecord.idle_op (r : StageRecord) : r.idle.op = r.op := rfl
@[simp] theorem StageRecord.idle_r1 (r : StageRecord) : r.idle.r1 = r.r1 := rfl
@[simp] theorem StageRecord.idle_r2 (r : StageRecord) : r.idle.r2 = r.r2 := rfl
@[simp] theorem StageRecord.idle_active (r : StageRecord) : r.idle.active = false := rfl
@[simp] theorem StageRecord.ofWord_active (w : Word) (p : PcAddr) : (StageRecord.ofWord w p).active = true := rfl
@[simp] theorem StageRecord.ofWord_word (w : Word) (p : PcAddr) : (StageRecord.ofWord w p).word = w := rfl
@[simp] theorem StageRecord.ofWord_opc (w : Word) (p : PcAddr) : (StageRecord.ofWord w p).opc = p := rfl
@[simp] theorem StageRecord.ofWord_instr (w : Word) (p : PcAddr) : (StageRecord.ofWord w p).instr = decode w := rfl

/-- A register read after a register write. -/
theorem readReg_writeReg (s : State) (i j : RegIdx) (v : Byte) :
    readReg (writeReg s i v) j = if j = i then v else readReg s j := by
  simp only [readReg, writeReg, Fin.getElem_fin, Vector.getElem_set, Fin.ext_iff, eq_comm]

@[simp] theorem readReg_writeReg_self (s : State) (i : RegIdx) (v : Byte) : readReg (writeReg s i v) i = v := by
  simp [readReg_writeReg]

theorem readReg_writeReg_ne (s : State) {i j : RegIdx} (h : j ≠ i) (v : Byte) :
    readReg (writeReg s i v) j = readReg s j := by
  simp [readReg_writeReg, h]

@[simp] theorem readReg_writeFlags (s : State) (F : Flags) (j : RegIdx) : readReg (writeFlags s F) j = readReg s j := rfl
@[simp] theorem readReg_writeCell (s : State) (a : Nat) (v : Byte) (j : RegIdx) : readReg (writeCell s a v) j = readReg s j := rfl
@[simp] theorem readReg_requestFlush (s : State) (t : PcAddr) (j : RegIdx) : readReg (requestFlush s t) j = readReg s j := rfl
@[simp] theorem readReg_emitDiag (s : State) (p : PcAddr) (w : Word) (j : RegIdx) : readReg (emitDiag s p w) j = readReg s j := rfl
@[simp] theorem readReg_retire (s : State) (j : RegIdx) : readReg (retire s) j = readReg s j := rfl
@[simp] theorem readReg_countCycle (s : State) (j : RegIdx) : readReg (countCycle s) j = readReg s j := rfl
@[simp] theorem readReg_writeResult (s : State) (i : RegIdx) (v : Byte) (F : Flags) (j : RegIdx) :
    readReg (writeResult s i v F) j = readReg (writeReg s i v) j := rfl

@[simp] theorem dmemCell_writeReg (s : State) (i : RegIdx) (v : Byte) (b : Nat) : dmemCell (writeReg s i v) b = dmemCell s b := rfl
@[simp] theorem dmemCell_writeFlags (s : State) (F : Flags) (b : Nat) : dmemCell (writeFlags s F) b = dmemCell s b := rfl
@[simp] theorem dmemCell_writeResult (s : State) (i : RegIdx) (v : Byte) (F : Flags) (b : Nat) : dmemCell (writeResult s i v F) b = dmemCell s b := rfl
@[simp] theorem dmemCell_requestFlush (s : State) (t : PcAddr) (b : Nat) : dmemCell (requestFlush s t) b = dmemCell s b := rfl
@[simp] theorem dmemCell_emitDiag (s : State) (p : PcAddr) (w : Word) (b : Nat) : dmemCell (emitDiag s p w) b = dmemCell s b := rfl
@[simp] theorem dmemCell_retire (s : State) (b : Nat) : dmemCell (retire s) b = dmemCell s b := rfl
@[simp] theorem dmemCell_countCycle (s : State) (b : Nat) : dmemCell (countCycle s) b = dmemCell s b := rfl

@[simp] theorem imemWord_writeReg (s : State) (i : RegIdx) (v : Byte) (b : Nat) : imemWord (writeReg s i v) b = imemWord s b := rfl
@[simp] theorem imemWord_writeFlags (s : State) (F : Flags) (b : Nat) : imemWord (writeFlags s F) b = imemWord s b := rfl
@[simp] theorem imemWord_writeResult (s : State) (i : RegIdx) (v : Byte) (F : Flags) (b : Nat) : imemWord (writeResult s i v F) b = imemWord s b := rfl
@[simp] theorem imemWord_writeCell (s : State) (a : Nat) (v : Byte) (b : Nat) : imemWord (writeCell s a v) b = imemWord s b := rfl
@[simp] theorem imemWord_requestFlush (s : State) (t : PcAddr) (b : Nat) : imemWord (requestFlush s t) b = imemWord s b := rfl
@[simp] theorem imemWord_emitDiag (s : State) (p : PcAddr) (w : Word) (b : Nat) : imemWord (emitDiag s p w) b = imemWord s b := rfl
@[simp] theorem imemWord_retire (s : State) (b : Nat) : imemWord (retire s) b = imemWord s b := rfl
@[simp] theorem imemWord_countCycle (s : State) (b : Nat) : imemWord (countCycle s) b = imemWord s b := rfl

/-- The packed flag record reads back (R27). -/
@[simp] theorem Flags.unpack_pack (F : Flags) : Flags.unpack F.pack = F := by
  obtain ⟨z, s, n, v, c⟩ := F
  revert z s n v c
  decide

/-- A packed record has bits 7:5 zero (R27, R108). -/
@[simp] theorem Flags.pack_top (F : Flags) : F.pack.extractLsb' 5 3 = 0 := by
  obtain ⟨z, s, n, v, c⟩ := F
  revert z s n v c
  decide

@[simp] theorem readFlags_writeFlags (s : State) (F : Flags) : readFlags (writeFlags s F) = F := by
  simp [readFlags]

@[simp] theorem readFlags_writeResult (s : State) (i : RegIdx) (v : Byte) (F : Flags) :
    readFlags (writeResult s i v F) = F := by
  simp [readFlags]

end Sys2Proof.Machine
end

