-- ==== Sys2Proof/Laws/Memory.lean ====
section
/-! SUPPORT. The laws of a memory: a read after a write, and the canonical form, which every operation keeps; then
what the data-memory load and store answer. -/

namespace Sys2Proof.Machine

@[simp] theorem Memory.read_nil {w : Nat} (a : Nat) : Memory.read ([] : Memory w) a = Memory.unlisted w := rfl

theorem Memory.wfFrom_cons {w size lo a : Nat} {v : BitVec w} {m : Memory w} :
    Memory.wfFrom size lo ((a, v) :: m) = true ↔
      lo ≤ a ∧ a < size ∧ v ≠ Memory.unlisted w ∧ Memory.wfFrom size (a + 1) m = true := by
  simp [Memory.wfFrom, and_assoc]

/-- A well-formed list stays so from a lower bound. -/
theorem Memory.wfFrom_mono {w size lo lo' : Nat} {m : Memory w} (h : lo' ≤ lo)
    (hm : Memory.wfFrom size lo m = true) : Memory.wfFrom size lo' m = true := by
  cases m with
  | nil => rfl
  | cons c m =>
    obtain ⟨a, v⟩ := c
    rw [Memory.wfFrom_cons] at hm ⊢
    exact ⟨by omega, hm.2⟩

/-- An address below the bound is not listed. -/
theorem Memory.read_below {w size lo a : Nat} {m : Memory w} (hm : Memory.wfFrom size lo m = true) (h : a < lo) :
    m.read a = Memory.unlisted w := by
  induction m generalizing lo with
  | nil => rfl
  | cons c m ih =>
    obtain ⟨b, v⟩ := c
    obtain ⟨h1, -, -, h4⟩ := Memory.wfFrom_cons.mp hm
    rw [Memory.read, if_neg (by omega), ih h4 (by omega)]

/-- A read after a write on canonical memories. -/
theorem Memory.read_write {w size lo : Nat} {m : Memory w} (hm : Memory.wfFrom size lo m = true) (a b : Nat)
    (v : BitVec w) : (m.write a v).read b = if b = a then v else m.read b := by
  induction m generalizing lo with
  | nil => by_cases hv : v = Memory.unlisted w <;> simp [Memory.write, Memory.read, hv, eq_comm]
  | cons c m ih =>
    obtain ⟨k, u⟩ := c
    obtain ⟨-, -, -, h4⟩ := Memory.wfFrom_cons.mp hm
    have hbelow : ∀ x, x ≤ k → Memory.read m x = Memory.unlisted w := fun x hx => Memory.read_below h4 (by omega)
    rw [Memory.write]
    split
    · next hak =>
      split
      · next hv =>
        by_cases hb : b = a
        · subst hb
          rw [if_pos rfl, Memory.read, if_neg (by omega), hbelow b (by omega), hv]
        · rw [if_neg hb]
      · simp only [Memory.read, eq_comm (a := a)]
    · split
      · next hak =>
        subst hak
        split
        · next hv =>
          by_cases hb : b = a
          · subst hb
            rw [if_pos rfl, hbelow b (le_refl b), hv]
          · rw [if_neg hb, Memory.read, if_neg (Ne.symm hb)]
        · by_cases hb : b = a
          · subst hb
            simp [Memory.read]
          · simp [Memory.read, hb, Ne.symm hb]
      · next h1 h2 =>
        rw [Memory.read, Memory.read, ih h4]
        by_cases hb : b = a
        · subst hb
          simp [Ne.symm h2]
        · simp [hb]

/-- A write leaves every other address as it was, on any list at all. -/
theorem Memory.read_write_ne {w : Nat} (m : Memory w) {a b : Nat} (h : b ≠ a) (v : BitVec w) :
    (m.write a v).read b = m.read b := by
  have h' : ¬ a = b := fun e => h e.symm
  induction m with
  | nil =>
    rw [Memory.write]
    split
    · rfl
    · simp [Memory.read, h']
  | cons c m ih =>
    obtain ⟨k, u⟩ := c
    rw [Memory.write]
    split
    · split
      · rfl
      · simp [Memory.read, h']
    · split
      · next hak =>
        subst hak
        split <;> simp [Memory.read, h']
      · rw [Memory.read, Memory.read, ih]

/-- A write at an existing address keeps the canonical form. -/
theorem Memory.wfFrom_write {w size lo a : Nat} {m : Memory w} (hm : Memory.wfFrom size lo m = true) (hlo : lo ≤ a)
    (ha : a < size) (v : BitVec w) : Memory.wfFrom size lo (m.write a v) = true := by
  induction m generalizing lo with
  | nil =>
    rw [Memory.write]
    split
    · rfl
    · next hv => exact Memory.wfFrom_cons.mpr ⟨hlo, ha, hv, rfl⟩
  | cons c m ih =>
    obtain ⟨k, u⟩ := c
    obtain ⟨h1, h2, h3, h4⟩ := Memory.wfFrom_cons.mp hm
    rw [Memory.write]
    split
    · next hak =>
      split
      · exact hm
      · next hv =>
        exact Memory.wfFrom_cons.mpr ⟨hlo, ha, hv, Memory.wfFrom_cons.mpr ⟨by omega, h2, h3, h4⟩⟩
    · split
      · next hak =>
        subst hak
        split
        · exact Memory.wfFrom_mono (by omega) h4
        · next hv => exact Memory.wfFrom_cons.mpr ⟨h1, ha, hv, h4⟩
      · exact Memory.wfFrom_cons.mpr ⟨h1, h2, h3, ih h4 (by omega)⟩

theorem Memory.wf_write {w size a : Nat} {m : Memory w} (hm : m.wf size = true) (ha : a < size) (v : BitVec w) :
    (m.write a v).wf size = true :=
  Memory.wfFrom_write hm (Nat.zero_le a) ha v

/-- Loading cells from `base` up answers a canonical memory. -/
theorem Memory.wfFrom_ofCells {w size base : Nat} (vs : List (BitVec w)) (h : base + vs.length ≤ size) :
    Memory.wfFrom size base (Memory.ofCells base vs) = true := by
  induction vs generalizing base with
  | nil => rfl
  | cons v vs ih =>
    rw [List.length_cons] at h
    have hrest := ih (base := base + 1) (by omega)
    rw [Memory.ofCells]
    split
    · exact Memory.wfFrom_mono (by omega) hrest
    · next hv => exact Memory.wfFrom_cons.mpr ⟨le_refl base, by omega, hv, hrest⟩

/-- What a loaded memory reads as: the cells in order, unlisted after them and before `base`. -/
theorem Memory.read_ofCells {w : Nat} (vs : List (BitVec w)) (base a : Nat) :
    (Memory.ofCells base vs).read a =
      if base ≤ a then (vs[a - base]?).getD (Memory.unlisted w) else Memory.unlisted w := by
  induction vs generalizing base with
  | nil => simp [Memory.ofCells]
  | cons v vs ih =>
    have hstep : (Memory.ofCells base (v :: vs)).read a =
        if base = a then v else (Memory.ofCells (base + 1) vs).read a := by
      rw [Memory.ofCells]
      split
      · next hv =>
        by_cases hb : base = a
        · subst hb
          simp [ih, hv]
        · simp [hb]
      · rfl
    rw [hstep, ih]
    rcases Nat.lt_trichotomy base a with h | h | h
    · obtain ⟨k, rfl⟩ : ∃ k, a = base + 1 + k := ⟨a - base - 1, by omega⟩
      have e : base + 1 + k - base = k + 1 := by omega
      simp [show base ≠ base + 1 + k by omega, show base ≤ base + 1 + k by omega, e]
    · subst h
      simp
    · simp [show base ≠ a by omega, show ¬ base ≤ a by omega, show ¬ base + 1 ≤ a by omega]

/-- A load at an existing address answers the cell and never faults. -/
theorem dmemLoad_ok {s : State} {a : Nat} (h : a < Config.dmemCells) : dmemLoad s a = .ok (dmemCell s a) := if_pos h

/-- A store at an existing address replaces the cell and never faults. -/
theorem dmemStore_ok {s : State} {a : Nat} (h : a < Config.dmemCells) (v : Byte) :
    dmemStore s a v = .ok (writeCell s a v) := if_pos h

/-- A cell read after a cell write, on canonical data memory. -/
theorem dmemCell_writeCell {s : State} (hs : s.dmem.wf Config.dmemCells = true) (a b : Nat) (v : Byte) :
    dmemCell (writeCell s a v) b = if b = a then v else dmemCell s b :=
  Memory.read_write hs a b v

theorem dmemCell_writeCell_ne (s : State) {a b : Nat} (h : b ≠ a) (v : Byte) :
    dmemCell (writeCell s a v) b = dmemCell s b :=
  Memory.read_write_ne s.dmem h v

/-- A cell write at an existing address keeps data memory canonical. -/
theorem dmem_wf_writeCell {s : State} (hs : s.dmem.wf Config.dmemCells = true) {a : Nat} (ha : a < Config.dmemCells)
    (v : Byte) : (writeCell s a v).dmem.wf Config.dmemCells = true :=
  Memory.wf_write hs ha v

/-- The memory of the reset state is canonical. -/
theorem reset_dmem_wf : State.reset.dmem.wf Config.dmemCells = true := rfl

theorem reset_imem_wf : State.reset.imem.wf Config.imemWords = true := rfl

end Sys2Proof.Machine
end

