-- ==== Sys2Proof/Laws/Operands.lean ====
section
/-! SUPPORT. The ranges of the computed operands: data addresses and branch targets. -/

namespace Sys2Proof.Machine

/-- `wrap` answers an existing data address, whatever it is given (45_load_store.md R162). -/
theorem wrap_lt (a : Int) : wrap a < Config.dmemCells := by
  have h : (Config.dmemCells : Int) = 2048 := rfl
  simp only [wrap, h]
  omega

theorem dataAddr_lt (imm : Field6) : dataAddr imm < Config.dmemCells := wrap_lt _

/-- A BEQZ target as a number, from an address that exists (44_control_transfer.md R150). -/
theorem beqzTarget_toNat {opc : PcAddr} (h : opc.toNat < Config.imemWords) (off : Field6) :
    (beqzTarget opc off).toNat = opc.toNat + 1 + off.toNat := by
  have hoff := off.isLt
  have h' : opc.toNat < 1024 := h
  have h1 : (1 : PcAddr).toNat = 1 := rfl
  simp only [beqzTarget, rawImm, BitVec.toNat_add, BitVec.toNat_ofNat, h1]
  omega

/-- A BR target is an address that exists (44_control_transfer.md R151). -/
theorem brTarget_lt (h l : Byte) : (brTarget h l).toNat < Config.imemWords := by
  simp only [brTarget, BitVec.toNat_setWidth]
  exact Nat.lt_of_le_of_lt (Nat.mod_le _ _) (BitVec.isLt _)

end Sys2Proof.Machine
end

