-- ==== Sys2Proof/Laws/Exec.lean ====
section
/-! SUPPORT. What the execution unit can do, said once: the equation of each meaning that computes more than one
named update, and what every meaning leaves as it was. -/

namespace Sys2Proof.Machine

/-- LDR never faults: its address exists. -/
theorem execLdr_eq (rd : RegIdx) (imm : Field6) (s : State) :
    execLdr rd imm s = .next (writeReg s rd (dmemCell s (dataAddr imm))) := by
  rw [execLdr, dmemLoad_ok (dataAddr_lt imm)]

/-- STR never faults: its address exists. -/
theorem execStr_eq (rs : RegIdx) (imm : Field6) (s : State) :
    execStr rs imm s = .next (writeCell s (dataAddr imm) (readReg s rs)) := by
  rw [execStr, dmemStore_ok (dataAddr_lt imm)]

theorem execBeqz_taken {rt : RegIdx} {s : State} (h : readReg s rt = 0x00) (off : Field6) :
    execBeqz rt off s = .next (requestFlush s (beqzTarget s.e.opc off)) := if_pos h

theorem execBeqz_notTaken {rt : RegIdx} {s : State} (h : readReg s rt ≠ 0x00) (off : Field6) :
    execBeqz rt off s = .next s := if_neg h

/-- Everything an instruction can do: one register and the flags, one register, one cell that exists, a flush
request to a target that a branch forms, a diagnostic event, or nothing. -/
theorem exec_cases (i : Instr) (s : State) :
    ∃ t, exec i s = .next t ∧
      ((∃ rd r F, t = writeResult s rd r F) ∨ (∃ rd r, t = writeReg s rd r) ∨
        (∃ a v, a < Config.dmemCells ∧ t = writeCell s a v) ∨
        (∃ off, t = requestFlush s (beqzTarget s.e.opc off)) ∨ (∃ h l, t = requestFlush s (brTarget h l)) ∨
        t = emitDiag s s.e.opc s.e.word ∨ t = s) := by
  cases i with
  | add rd rs => exact ⟨_, rfl, .inl ⟨_, _, _, rfl⟩⟩
  | sub rd rs => exact ⟨_, rfl, .inl ⟨_, _, _, rfl⟩⟩
  | mul rd rs => exact ⟨_, rfl, .inl ⟨_, _, _, rfl⟩⟩
  | movi rd imm => exact ⟨_, rfl, .inr (.inl ⟨_, _, rfl⟩)⟩
  | beqz rt off =>
    by_cases h : readReg s rt = 0x00
    · exact ⟨_, execBeqz_taken h off, .inr (.inr (.inr (.inl ⟨_, rfl⟩)))⟩
    · exact ⟨_, execBeqz_notTaken h off, .inr (.inr (.inr (.inr (.inr (.inr rfl)))))⟩
  | andi rd imm => exact ⟨_, rfl, .inl ⟨_, _, _, rfl⟩⟩
  | eor rd rs => exact ⟨_, rfl, .inl ⟨_, _, _, rfl⟩⟩
  | br rh rl => exact ⟨_, rfl, .inr (.inr (.inr (.inr (.inl ⟨_, _, rfl⟩))))⟩
  | sal rd n => exact ⟨_, rfl, .inl ⟨_, _, _, rfl⟩⟩
  | sar rd n => exact ⟨_, rfl, .inl ⟨_, _, _, rfl⟩⟩
  | ldr rd imm => exact ⟨_, execLdr_eq rd imm s, .inr (.inl ⟨_, _, rfl⟩)⟩
  | str rs imm => exact ⟨_, execStr_eq rs imm s, .inr (.inr (.inl ⟨_, _, dataAddr_lt imm, rfl⟩))⟩
  | unknown op r1 r2 => exact ⟨_, rfl, .inr (.inr (.inr (.inr (.inr (.inl rfl)))))⟩

/-- What no instruction writes when it executes. -/
theorem exec_sameController {i : Instr} {s t : State} (h : exec i s = .next t) :
    t.pc = s.pc ∧ t.imem = s.imem ∧ t.f = s.f ∧ t.d = s.d ∧ t.e = s.e ∧ t.eop = s.eop ∧ t.cycles = s.cycles := by
  obtain ⟨u, hu, hcases⟩ := exec_cases i s
  obtain rfl : u = t := Host.Outcome.next.inj (hu.symm.trans h)
  obtain ⟨_, _, _, rfl⟩ | ⟨_, _, rfl⟩ | ⟨_, _, -, rfl⟩ | ⟨_, rfl⟩ | ⟨_, _, rfl⟩ | rfl | rfl := hcases <;> simp

end Sys2Proof.Machine
end

