-- ==== Sys2Proof/Laws/Pipeline.lean ====
section
/-! SUPPORT. What each sub-step of a cycle can do, said once, and the cycle assembled from them. -/

namespace Sys2Proof.Machine

theorem flushStage_none {s : State} (h : s.flush = none) (rearm : Bool) : flushStage rearm s = s := by
  simp [flushStage, h]

theorem flushStage_pending {s : State} {t : PcAddr} (h : s.flush = some t) :
    flushStage false s = { s with d := s.d.idle, e := s.e.idle, pc := t, flush := none } := by
  simp [flushStage, h]

theorem executeStage_idle {s : State} (h : s.e.active = false) : executeStage s = .next s := by
  simp [executeStage, h]

theorem executeStage_active {s t : State} (h : s.e.active = true) (ht : exec s.e.instr s = .next t) :
    executeStage s = .next (retire t) := by
  simp [executeStage, h, ht]

/-- The execute sub-step always answers a next state. -/
theorem executeStage_next (s : State) : ∃ t, executeStage s = .next t := by
  cases h : s.e.active with
  | false => exact ⟨s, executeStage_idle h⟩
  | true =>
    obtain ⟨t, ht, -⟩ := exec_cases s.e.instr s
    exact ⟨_, executeStage_active h ht⟩

theorem decodeStage_idle {s : State} (h : s.d.active = false) : decodeStage s = s := by
  simp [decodeStage, h]

theorem decodeStage_active {s : State} (h : s.d.active = true) :
    decodeStage s = { s with e := StageRecord.ofWord s.d.word s.d.opc, d := s.d.idle } := by
  simp [decodeStage, h]

/-- Fetch ends exactly out of range or at the zero word. -/
theorem fetchEnds_iff (s : State) :
    fetchEnds s = true ↔ Config.imemWords ≤ s.pc.toNat ∨ imemWord s s.pc.toNat = 0x0000 := by
  simp [fetchEnds]

theorem fetchEnds_eq_false (s : State) :
    fetchEnds s = false ↔ s.pc.toNat < Config.imemWords ∧ imemWord s s.pc.toNat ≠ 0x0000 := by
  simp [fetchEnds]

theorem fetchStage_disabled {s : State} (h : s.f.active = false) : fetchStage s = s := by
  simp [fetchStage, h]

theorem fetchStage_ends {s : State} (h : s.f.active = true) (he : fetchEnds s = true) :
    fetchStage s = { s with f := s.f.idle, eop := true } := by
  simp [fetchStage, h, he]

theorem fetchStage_fetches {s : State} (h : s.f.active = true) (he : fetchEnds s = false) :
    fetchStage s = { s with
      d := StageRecord.ofWord (imemWord s s.pc.toNat) s.pc
      f := StageRecord.ofWord (imemWord s s.pc.toNat) s.pc
      pc := s.pc + 1 } := by
  simp [fetchStage, h, he]

/-- Everything fetch can do. -/
theorem fetchStage_cases (s : State) :
    (s.f.active = false ∧ fetchStage s = s) ∨
      (s.f.active = true ∧ fetchEnds s = true ∧ fetchStage s = { s with f := s.f.idle, eop := true }) ∨
      (s.f.active = true ∧ fetchEnds s = false ∧ fetchStage s = { s with
        d := StageRecord.ofWord (imemWord s s.pc.toNat) s.pc
        f := StageRecord.ofWord (imemWord s s.pc.toNat) s.pc
        pc := s.pc + 1 }) := by
  cases h : s.f.active with
  | false => exact .inl ⟨rfl, fetchStage_disabled h⟩
  | true =>
    cases he : fetchEnds s with
    | true => exact .inr (.inl ⟨rfl, rfl, fetchStage_ends h he⟩)
    | false => exact .inr (.inr ⟨rfl, rfl, fetchStage_fetches h he⟩)

theorem halted_iff (s : State) :
    halted s = true ↔ s.eop = true ∧ s.f.active = false ∧ s.d.active = false ∧ s.e.active = false := by
  simp [halted, haltedWith, Config.flushRearmsFetch, and_assoc]

theorem step_halted {s : State} (h : halted s = true) : step s = .next s := if_pos h

/-- A cycle, when the execute sub-step answers `t`. -/
theorem step_cycle {s t : State} (h : halted s = false) (ht : executeStage (flushStage false (countCycle s)) = .next t) :
    step s = .next (fetchStage (decodeStage t)) := by
  have h' : haltedWith false s = false := h
  simp [step, stepWith, h', cycleWith, Config.flushRearmsFetch, ht]

/-- Everything a step can do: stay Halted, or run the sub-steps of a cycle in order. -/
theorem step_cases {s u : State} (h : step s = .next u) :
    (halted s = true ∧ u = s) ∨
      (halted s = false ∧ ∃ t, executeStage (flushStage false (countCycle s)) = .next t ∧
        u = fetchStage (decodeStage t)) := by
  cases hh : halted s with
  | true =>
    rw [step_halted hh] at h
    exact .inl ⟨rfl, (Host.Outcome.next.inj h).symm⟩
  | false =>
    obtain ⟨t, ht⟩ := executeStage_next (flushStage false (countCycle s))
    rw [step_cycle hh ht] at h
    exact .inr ⟨rfl, t, ht, (Host.Outcome.next.inj h).symm⟩

/-! What the sub-steps leave as it was. -/

@[simp] theorem flushStage_regs (b : Bool) (s : State) : (flushStage b s).regs = s.regs := by
  unfold flushStage; split <;> rfl
@[simp] theorem flushStage_sreg (b : Bool) (s : State) : (flushStage b s).sreg = s.sreg := by
  unfold flushStage; split <;> rfl
@[simp] theorem flushStage_imem (b : Bool) (s : State) : (flushStage b s).imem = s.imem := by
  unfold flushStage; split <;> rfl
@[simp] theorem flushStage_dmem (b : Bool) (s : State) : (flushStage b s).dmem = s.dmem := by
  unfold flushStage; split <;> rfl
@[simp] theorem flushStage_cycles (b : Bool) (s : State) : (flushStage b s).cycles = s.cycles := by
  unfold flushStage; split <;> rfl
@[simp] theorem flushStage_diags (b : Bool) (s : State) : (flushStage b s).diags = s.diags := by
  unfold flushStage; split <;> rfl
@[simp] theorem flushStage_flush (b : Bool) (s : State) : (flushStage b s).flush = none := by
  unfold flushStage; split <;> simp [*]

@[simp] theorem decodeStage_regs (s : State) : (decodeStage s).regs = s.regs := by
  unfold decodeStage; split <;> rfl
@[simp] theorem decodeStage_pc (s : State) : (decodeStage s).pc = s.pc := by
  unfold decodeStage; split <;> rfl
@[simp] theorem decodeStage_sreg (s : State) : (decodeStage s).sreg = s.sreg := by
  unfold decodeStage; split <;> rfl
@[simp] theorem decodeStage_imem (s : State) : (decodeStage s).imem = s.imem := by
  unfold decodeStage; split <;> rfl
@[simp] theorem decodeStage_dmem (s : State) : (decodeStage s).dmem = s.dmem := by
  unfold decodeStage; split <;> rfl
@[simp] theorem decodeStage_f (s : State) : (decodeStage s).f = s.f := by
  unfold decodeStage; split <;> rfl
@[simp] theorem decodeStage_flush (s : State) : (decodeStage s).flush = s.flush := by
  unfold decodeStage; split <;> rfl
@[simp] theorem decodeStage_eop (s : State) : (decodeStage s).eop = s.eop := by
  unfold decodeStage; split <;> rfl
@[simp] theorem decodeStage_cycles (s : State) : (decodeStage s).cycles = s.cycles := by
  unfold decodeStage; split <;> rfl
@[simp] theorem decodeStage_diags (s : State) : (decodeStage s).diags = s.diags := by
  unfold decodeStage; split <;> rfl

@[simp] theorem fetchStage_regs (s : State) : (fetchStage s).regs = s.regs := by
  unfold fetchStage; split <;> (try split) <;> rfl
@[simp] theorem fetchStage_sreg (s : State) : (fetchStage s).sreg = s.sreg := by
  unfold fetchStage; split <;> (try split) <;> rfl
@[simp] theorem fetchStage_imem (s : State) : (fetchStage s).imem = s.imem := by
  unfold fetchStage; split <;> (try split) <;> rfl
@[simp] theorem fetchStage_dmem (s : State) : (fetchStage s).dmem = s.dmem := by
  unfold fetchStage; split <;> (try split) <;> rfl
@[simp] theorem fetchStage_e (s : State) : (fetchStage s).e = s.e := by
  unfold fetchStage; split <;> (try split) <;> rfl
@[simp] theorem fetchStage_flush (s : State) : (fetchStage s).flush = s.flush := by
  unfold fetchStage; split <;> (try split) <;> rfl
@[simp] theorem fetchStage_cycles (s : State) : (fetchStage s).cycles = s.cycles := by
  unfold fetchStage; split <;> (try split) <;> rfl
@[simp] theorem fetchStage_diags (s : State) : (fetchStage s).diags = s.diags := by
  unfold fetchStage; split <;> (try split) <;> rfl

/-- A cycle by cases: a flush cycle, a bubble, or an instruction. -/
theorem cycle_cases {s u : State} (hh : halted s = false) (h : step s = .next u) :
    (∃ t, s.flush = some t ∧
        u = fetchStage { countCycle s with d := s.d.idle, e := s.e.idle, pc := t, flush := none }) ∨
      (s.flush = none ∧ s.e.active = false ∧ u = fetchStage (decodeStage (countCycle s))) ∨
      (s.flush = none ∧ s.e.active = true ∧
        ∃ t, exec s.e.instr (countCycle s) = .next t ∧ u = fetchStage (decodeStage (retire t))) := by
  obtain ⟨h1, -⟩ | ⟨-, t, ht, rfl⟩ := step_cases h
  · simp [hh] at h1
  cases hf : s.flush with
  | some t' =>
    rw [flushStage_pending (t := t') (by simpa using hf), executeStage_idle rfl] at ht
    obtain rfl := Host.Outcome.next.inj ht
    exact .inl ⟨t', rfl, by rw [decodeStage_idle rfl]; rfl⟩
  | none =>
    rw [flushStage_none (by simpa using hf)] at ht
    cases he : s.e.active with
    | false =>
      rw [executeStage_idle (by simpa using he)] at ht
      obtain rfl := Host.Outcome.next.inj ht
      exact .inr (.inl ⟨rfl, rfl, rfl⟩)
    | true =>
      obtain ⟨t', ht', -⟩ := exec_cases s.e.instr (countCycle s)
      rw [executeStage_active (by simpa using he) (by simpa using ht')] at ht
      obtain rfl := Host.Outcome.next.inj ht
      exact .inr (.inr ⟨rfl, rfl, t', ht', rfl⟩)

end Sys2Proof.Machine
end

