-- ==== Sys2Proof/Tests/Slice0.lean ====
section
/-! SUPPORT. The model's own tests. Expected values are those of the spec's rules and of 95_test_vectors.md (the
section is named where they are used). First WellFormed, then the codec, then one instruction at a time, then single
steps, and last a witness for the hypotheses of every statement that has some. -/

set_option autoImplicit false

open Sys2Proof Sys2Proof.Machine

namespace Sys2Proof.Tests

/-! WellFormed (R79): an op value below 12 under `unknown` is refused. -/

theorem test_wf_refuses_defined_op : ¬ (Instr.unknown 11 0 0).WellFormed := by decide
theorem test_wf_refuses_op_zero : ¬ (Instr.unknown 0 1 2).WellFormed := by decide
theorem test_wf_accepts_reserved_op : (Instr.unknown 12 0 0).WellFormed := by decide

/-! Decoding, on words written out from the patterns of R78 (field by field: op, r1, r2; section 2.1 and R86). -/

theorem test_decode_add : decode 0b0000000001000010 = .add 1 2 := by decide
theorem test_decode_sub : decode 0b0001000011000001 = .sub 3 1 := by decide
theorem test_decode_mul : decode 0b0010000011000010 = .mul 3 2 := by decide
theorem test_decode_movi : decode 0b0011000011111111 = .movi 3 0b111111 := by decide
theorem test_decode_beqz : decode 0b0100000001000100 = .beqz 1 4 := by decide
theorem test_decode_andi : decode 0b0101000001100000 = .andi 1 0b100000 := by decide
theorem test_decode_eor : decode 0b0110000011000010 = .eor 3 2 := by decide
theorem test_decode_br : decode 0b0111001010001011 = .br 10 11 := by decide
theorem test_decode_sal : decode 0b1000000010000101 = .sal 2 5 := by decide
theorem test_decode_sar : decode 0b1001000001000010 = .sar 1 2 := by decide
theorem test_decode_ldr : decode 0b1010000011001010 = .ldr 3 10 := by decide
theorem test_decode_str : decode 0b1011000001001010 = .str 1 10 := by decide
theorem test_decode_unknown : decode 0b1101000100100011 = .unknown 13 4 35 := by decide
theorem test_decode_unknown_last : decode 0xFFFF = .unknown 15 63 63 := by decide
theorem test_encode_beqz : encode (.beqz 63 63) = 0x4FFF := by decide
theorem test_encode_str : encode (.str 1 10) = 0xB04A := by decide
theorem test_table_word : decodeTableWord 16 0x304A = some (.movi 1 10) := by decide
theorem test_table_word_too_wide : decodeTableWord 16 0x10000 = none := by decide

/-! Operands (R75, R150, R151, R162; sections 2.1, 2.5 and 2.6). -/

theorem test_sext_boundaries : [sext8 31, sext8 32, sext8 63] = [0x1F, 0xE0, 0xFF] := by decide
theorem test_address_boundaries : [dataAddr 31, dataAddr 32, dataAddr 63] = [31, 2016, 2047] := by decide
theorem test_beqz_target : beqzTarget 1000 63 = 1064 := by decide
theorem test_br_targets : [brTarget 1 2, brTarget 1 0x40, brTarget 16 0, brTarget 3 0xFF] = [66, 64, 0, 255] := by decide

/-! Instructions, on x[1] = a and x[2] = b: one or two rows of sections 2.2 to 2.7 each. -/

/-- The reset state with x[1] and x[2] set. -/
def seeded (a b : Byte) : State := writeReg (writeReg State.reset 1 a) 2 b

/-- What a view of the next state shows, when there is one. -/
def after {α : Type} (o : Result) (view : State → α) : Option α :=
  match o with
  | .next t => some (view t)
  | .fault _ => none
  | .refused _ => none

/-- x[1] and `sreg`. -/
def x1Sreg (s : State) : Byte × Byte := (readReg s 1, s.sreg)

theorem test_add_overflow : after (exec (.add 1 2) (seeded 127 1)) x1Sreg = some (0x80, 0x0C) := by decide
theorem test_add_carry_to_zero : after (exec (.add 1 1) (seeded 0x80 0)) x1Sreg = some (0x00, 0x1B) := by decide
theorem test_sub_borrow : after (exec (.sub 1 2) (seeded 0 1)) x1Sreg = some (0xFF, 0x16) := by decide
theorem test_sub_overflow : after (exec (.sub 1 2) (seeded 127 0xFF)) x1Sreg = some (0x80, 0x1C) := by decide
theorem test_mul_low_byte : after (exec (.mul 1 2) (seeded 20 100)) x1Sreg = some (0xD0, 0x06) := by decide
theorem test_mul_lost_bits : after (exec (.mul 1 2) (seeded 16 16)) x1Sreg = some (0x00, 0x01) := by decide
theorem test_movi_keeps_flags :
    after (exec (.movi 1 0b100000) (writeFlags (seeded 5 0) ⟨false, true, true, false, true⟩)) x1Sreg =
      some (0xE0, 0x16) := by decide
theorem test_andi_signed_mask : after (exec (.andi 1 0b100000) (seeded 0x7F 0)) x1Sreg = some (0x60, 0x00) := by decide
theorem test_andi_negative : after (exec (.andi 1 0b111111) (seeded 0x80 0)) x1Sreg = some (0x80, 0x06) := by decide
theorem test_eor : after (exec (.eor 1 2) (seeded 0xFC 0xA0)) x1Sreg = some (0x5C, 0x00) := by decide
theorem test_eor_self : after (exec (.eor 1 1) (seeded 0x5A 0)) x1Sreg = some (0x00, 0x01) := by decide
theorem test_sal_no_carry : after (exec (.sal 1 1) (seeded 0x81 0)) x1Sreg = some (0x02, 0x00) := by decide
theorem test_sal_largest_count : after (exec (.sal 1 63) (seeded 0xFF 0)) x1Sreg = some (0x00, 0x01) := by decide
theorem test_sar_floor : after (exec (.sar 1 2) (seeded 0xF1 0)) x1Sreg = some (0xFC, 0x06) := by decide
theorem test_sar_largest_count : after (exec (.sar 1 63) (seeded 0x80 0)) x1Sreg = some (0xFF, 0x06) := by decide
theorem test_beqz_taken :
    after (exec (.beqz 1 4) { seeded 0 0 with e := StageRecord.ofWord 0x4044 5 }) (·.flush) = some (some 10) := by decide
theorem test_beqz_not_taken :
    after (exec (.beqz 1 4) { seeded 0x80 0 with e := StageRecord.ofWord 0x4044 5 }) (·.flush) = some none := by decide
theorem test_br_low_ten_bits : after (exec (.br 1 2) (seeded 0xFF 0xFF)) (·.flush) = some (some 1023) := by decide
theorem test_ldr_top_cell :
    after (exec (.ldr 1 0b111111) (writeCell (seeded 0 0) 2047 0xF7)) x1Sreg = some (0xF7, 0x00) := by decide
theorem test_str_top_cell : after (exec (.str 1 0b111111) (seeded 0xF7 0)) (·.dmem) = some [(2047, 0xF7)] := by decide
theorem test_str_zero_unlists :
    after (exec (.str 1 10) (writeCell (seeded 0 0) 10 7)) (·.dmem) = some [] := by decide
theorem test_unknown_reports :
    after (exec (.unknown 13 4 35) { seeded 1 2 with e := StageRecord.ofWord 0xD123 9 }) (fun t => (t.diags, t.flush)) =
      some ([.unknownOpcode 9 0xD123], none) := by decide
theorem test_load_outside_faults : dmemLoad State.reset 2048 = .error (.dataAddressOutOfRange 2048) := by rfl
theorem test_store_outside_faults : dmemStore State.reset 2048 1 = .error (.dataAddressOutOfRange 2048) := by rfl

/-! Single steps. -/

/-- A pipeline with `ws` loaded, the first word in E, the second in D and `pc` at 2, as after two cycles. -/
def piped (w0 w1 : Word) (ws : List Word) : State :=
  { State.reset with
    imem := Memory.ofCells 0 (w0 :: w1 :: ws)
    f := StageRecord.ofWord w1 1
    d := StageRecord.ofWord w1 1
    e := StageRecord.ofWord w0 0
    pc := 2
    cycles := 2 }

/-- A word placed by `withFetchWord` runs in the very next step (section 3, P0: x[1] = 10, then Halted, pc = 1). -/
theorem test_withFetchWord_runs :
    after (step (State.reset.withFetchWord 16 0x304A)) (fun t => (readReg t 1, halted t, t.pc)) =
      some (10, true, 1) := by decide
/-- The first fetch (P0, cycle 1). -/
theorem test_first_fetch :
    after (step { State.reset with imem := [(0, 0x304A)] }) (fun t => (t.d.word, t.d.active, t.pc, t.eop)) =
      some (0x304A, true, 1, false) := by decide
/-- A taken branch posts its flush while the shadow words move on (P6, cycle 3). -/
theorem test_branch_cycle :
    after (step (piped 0x4000 0x3041 [0x3082])) (fun t => (t.flush, t.e.word, t.d.word, t.pc)) =
      some (some 1, 0x3041, 0x3082, 3) := by decide
/-- The flush cycle discards both and fetches the target (P6, cycle 4). -/
theorem test_flush_cycle :
    after (step { piped 0x3041 0x3082 [] with flush := some 1 })
      (fun t => (t.flush, t.e.active, t.d.opc, t.pc, readReg t 1)) = some (none, false, 1, 2, 0) := by decide
/-- The end marker ends fetching and leaves `pc` (P1, cycle 4). -/
theorem test_end_marker :
    after (step (piped 0x304A 0x3080 [])) (fun t => (t.eop, t.f.active, t.pc, controllerState t)) =
      some (true, false, 2, .draining) := by decide
/-- An empty core halts after 1 cycle (section 2.8). -/
theorem test_empty_halts : after (step State.reset) (fun t => (halted t, t.cycles, t.pc)) = some (true, 1, 0) := by decide
theorem test_load_failure : loadProgram .truncate [] State.reset = none := by rfl
theorem test_cli_seeds : ((seedRegs cliRegs State.reset).regs[1], cliRegs[2], cliRegs[3], cliRegs[4]) = (5, 20, 100, 0) := by
  decide

/-! Witnesses: for each statement with hypotheses, a concrete state and operands that meet them together. -/

/-- A memory image for the executing states below: a store of x[1] to cell 10. -/
def storing : State := { piped 0xB04A 0x3080 [0x3082] with regs := Config.initRegs.set 1 7 }
/-- An ADD that executes: x[1] = 127 + 1. -/
def adding : State := { piped 0x0042 0x3080 [0x3082] with regs := (Config.initRegs.set 1 127).set 2 1 }
/-- A BR to address 5 in E, five words loaded beyond it. -/
def branching : State := { piped 0x728B 0x3041 [0x3041, 0x3041, 0x3041, 0x3045] with regs := Config.initRegs.set 11 5 }
/-- A flush to address 1 pending. -/
def flushing : State := { piped 0x3041 0x3082 [] with flush := some 1 }
/-- Halted, with all stages Idle. -/
def atHalt : State := { State.reset with f := StageRecord.empty, eop := true }

/-- `o` answers a next state that `p` holds of. -/
def answers (o : Result) (p : State → Bool) : Bool :=
  match o with
  | .next t => p t
  | .fault _ => false
  | .refused _ => false

theorem witness_DecodeAndEncodeAgree : (Instr.unknown 13 4 35).WellFormed ∧ (Instr.add 63 63).WellFormed := by decide
theorem witness_DecodeReadsTheBitRanges :
    12 ≤ (decodeFields 0xC000).op.toNat ∧ 12 ≤ (decodeFields 0xFFFF).op.toNat := by decide
theorem witness_AddExecutes :
    State.reset.f.active = true ∧ imemWord State.reset State.reset.pc.toNat = encode (.add 0 0) := by decide
theorem witness_SalExecutes : 8 ≤ (8 : Field6).toNat ∧ 8 ≤ (63 : Field6).toNat := by decide
theorem witness_SarExecutes : 8 ≤ (8 : Field6).toNat ∧ (readReg (seeded 0x80 0) 1).toInt < 0 := by decide
theorem witness_BeqzExecutes_notTaken : readReg (seeded 1 0) 1 ≠ 0x00 := by decide
theorem witness_BeqzExecutes_taken : readReg (seeded 0 0) 1 = 0x00 := by decide
theorem witness_BrExecutes : (readReg (seeded 15 63) 2).toNat < 64 := by decide
theorem witness_StrExecutes : storing.dmem.wf Config.dmemCells = true := by decide
theorem witness_ReservedOpcodesOnlyReport : 12 ≤ (0xC000 : Word).toNat / 4096 ∧ 12 ≤ (0xFFFF : Word).toNat / 4096 := by
  decide
theorem witness_DataAddressFold : (-2048 : Int) ≤ -2048 ∧ (-32 : Int) ≤ -32 ∧ (31 : Int) ≤ 31 ∧ wrap (-1) = 2047 := by decide
theorem witness_LoadAnswersTheLastStore : (seeded 7 0).dmem.wf Config.dmemCells = true := by decide
theorem witness_StepsNeverWriteTheMiddleCells :
    answers (step (writeCell storing 32 9)) (fun t => dmemCell t 32 = 9 ∧ dmemCell t 10 = 7) = true := by decide
theorem witness_StepsNeverWriteTheMiddleCells_last :
    answers (step (writeCell storing 2015 9)) (fun t => dmemCell t 2015 = 9) = true := by decide
theorem witness_OnlyAStoreWritesDataMemory :
    storing.dmem.wf Config.dmemCells = true ∧
      answers (step storing) (fun t => dmemCell t 10 ≠ dmemCell storing 10) = true := by decide
theorem witness_FlushDiscardsDecodeAndExecute : State.reset.flush = none ∧ flushing.flush = some 1 := by decide
theorem witness_ExecuteRunsAndRetires : State.reset.e.active = false ∧ adding.e.active = true := by decide
theorem witness_DecodeMovesTheWord : State.reset.d.active = false ∧ adding.d.active = true := by decide
theorem witness_FetchRule_disabled : atHalt.f.active = false := by decide
theorem witness_FetchRule_outOfRange :
    { State.reset with pc := 1024 }.f.active = true ∧ 1024 ≤ ({ State.reset with pc := 1024 } : State).pc.toNat := by decide
theorem witness_FetchRule_zeroWord : State.reset.f.active = true ∧ imemWord State.reset 0 = 0x0000 := by decide
theorem witness_FetchRule_lastWord :
    let s : State := { State.reset with pc := 1023, imem := [(1023, 0x3000)] }
    s.f.active = true ∧ s.pc.toNat < 1024 ∧ imemWord s s.pc.toNat ≠ 0x0000 := by decide
theorem witness_HaltCheckAndControllerState : adding.eop = !adding.f.active ∧ atHalt.eop = !atHalt.f.active := by decide
theorem witness_StepRunsTheDecodedInstruction :
    adding.flush = none ∧ adding.e.active = true ∧ adding.e.Decoded ∧ decode adding.e.word = .add 1 2 :=
  ⟨rfl, rfl, rfl, by decide⟩
theorem witness_FlushCycleExecutesNothing : flushing.flush = some 1 ∧ halted flushing = false := by decide
theorem witness_BubbleCycleExecutesNothing :
    State.reset.flush = none ∧ State.reset.e.active = false ∧ halted State.reset = false := by decide
theorem witness_EachCycleIsCounted :
    halted adding = false ∧ answers (step adding) (fun t => t.cycles = 3) = true := by decide
theorem witness_HaltedIsFinal : halted atHalt = true := by decide
theorem witness_PcChangesInTwoPlaces :
    halted flushing = false ∧ answers (step flushing) (fun t => t.pc = 2) = true ∧
      answers (exec (.br 10 11) branching) (fun t => t.pc = 2) = true := by decide
theorem witness_InstructionMemoryIsReadOnly : answers (step storing) (fun t => t.imem = storing.imem) = true := by decide
theorem witness_StatusRegisterWriters :
    answers (step adding) (fun t => t.sreg ≠ adding.sreg) = true := by decide
theorem witness_RegisterWriters :
    answers (step adding) (fun t => readReg t 1 ≠ readReg adding 1) = true := by decide
theorem witness_EveryStepKeepsTheInvariant :
    CoreInv State.reset ∧ answers (step State.reset) (fun t => t.eop) = true := by
  refine ⟨?_, by decide⟩
  constructor <;> first | rfl | (intro t h; cases h) | (intro h; cases h) | decide
theorem witness_LoadFillsInstructionMemory :
    ([] : List Word) = [] ∧ [0x304A#16] ≠ [] ∧ [0x304A#16].length ≤ 1024 ∧
      (List.replicate 1024 (0x3000 : Word)).length ≤ 1024 := by
  refine ⟨rfl, by decide, by decide, ?_⟩
  rw [List.length_replicate]
theorem witness_FetchToExecuteLatency :
    adding.flush = none ∧ adding.f.active = true ∧ adding.pc.toNat < 1024 ∧
      imemWord adding adding.pc.toNat ≠ 0x0000 ∧
      answers (step adding) (fun t => t.flush = none ∧ answers (step t) (fun u => u.e.opc = 2)) = true := by decide
theorem witness_NextWordExecutesNext :
    CoreInv adding ∧ adding.flush = none ∧ adding.e.active = true ∧ adding.d.active = true ∧
      answers (step adding) (fun t => t.flush = none) = true := by
  refine ⟨?_, by decide⟩
  constructor <;> first | rfl | (intro t h; cases h) | exact fun _ => ⟨by decide, by decide, by decide⟩ | decide
theorem witness_TakenBranchCostsTwoBubbles :
    branching.flush = none ∧ answers (step branching) (fun t => t.flush = some 5 ∧ t.f.active = true) = true ∧
      imemWord branching 5 ≠ 0x0000 := by decide
theorem witness_EndMarkerInTheShadowHalts_first :
    let s : State := { branching with d := StageRecord.empty, f := StageRecord.empty, eop := true, pc := 1 }
    s.flush = none ∧ s.e.active = true ∧ answers (step s) (fun t => t.flush = some 5) = true ∧ s.eop = true ∧
      s.f.active = false ∧ s.d.active = false := by decide
theorem witness_EndMarkerInTheShadowHalts_second :
    let s : State := { branching with imem := [(0, 0x728B), (1, 0x3041)] }
    s.flush = none ∧ s.e.active = true ∧ answers (step s) (fun t => t.flush = some 5) = true ∧
      s.f.active = true ∧ s.d.active = true ∧ imemWord s s.pc.toNat = 0x0000 := by decide
theorem witness_RearmMattersOnlyAfterEndOfProgram :
    State.reset.flush = none ∧ flushing.f.active = true ∧ flushing.eop = false := by decide
theorem witness_BranchTargetsInRange :
    (1023 : PcAddr).toNat < 1024 ∧ (beqzTarget 1023 63).toNat = 1087 ∧ (beqzTarget 0 0).toNat = 1 := by decide
theorem witness_FlagsCyclesAndEventsAreWriteOnly : answers (step adding) (fun t => t.sreg = 0x0C) = true := by decide
theorem witness_IdleContentsAreNeverRead :
    answers (step State.reset) (fun t => t.eop) = true ∧
      (StageRecord.ofWord 0xFFFF 9).active = State.reset.f.active ∧
      (StageRecord.ofWord 0xFFFF 9).idle.active = State.reset.d.active ∧
      (StageRecord.ofWord 0xFFFF 9).idle ≠ State.reset.d := by decide

end Sys2Proof.Tests
end

/-! PROOFS. The codec and the operand forms (30_encoding.md): what a word decodes to, the opcode map, the sign
extension of an immediate, and what a reserved opcode does. -/

namespace Sys2Proof

/-- Decoding a word written in the layout of R71 leaves only the opcode map to evaluate. -/
theorem decode_layout (op : OpField) (r1 r2 : Field6) : decode (op ++ r1 ++ r2) = ofFields ⟨op, r1, r2⟩ :=
  congrArg ofFields (decodeFields_layout op r1 r2)

/-- The opcode map on a reserved op value (R79). -/
theorem ofFields_reserved {f : Fields} (h : f.op.Reserved) : ofFields f = .unknown f.op f.r1 f.r2 :=
  Laws.FieldsRoundTrip.unknown f.op f.r1 f.r2 h

/-- A word whose op field is reserved decodes to the unknown outcome with its fields (R72, R79). -/
theorem decode_reserved {w : Word} (h : (decodeFields w).op.Reserved) :
    decode w = .unknown (decodeFields w).op (decodeFields w).r1 (decodeFields w).r2 :=
  ofFields_reserved h

/-- The row 11xx of the opcode table: whatever its two low bits, the op value is reserved. -/
theorem reserved_of_top_bits (x : BitVec 2) : OpField.Reserved (0b11#2 ++ x) := by
  have happend : BitVec.toNat (w := 4) (0b11#2 ++ x) = 3 <<< 2 ||| x.toNat := BitVec.toNat_append _ x
  calc 12 ≤ 3 <<< 2 ||| x.toNat := Nat.left_le_or
    _ = BitVec.toNat (w := 4) (0b11#2 ++ x) := happend.symm

/-- Settles O4: each row is the decoded layout with the opcode map evaluated at the row's op value. -/
theorem opcodeMapOfEveryPattern : Obligations.OpcodeMapOfEveryPattern := fun a b =>
  ⟨decode_layout 0x0 a b, decode_layout 0x1 a b, decode_layout 0x2 a b, decode_layout 0x3 a b,
    decode_layout 0x4 a b, decode_layout 0x5 a b, decode_layout 0x6 a b, decode_layout 0x7 a b,
    decode_layout 0x8 a b, decode_layout 0x9 a b, decode_layout 0xA a b, decode_layout 0xB a b,
    fun x => (decode_layout (0b11#2 ++ x) a b).trans (ofFields_reserved (reserved_of_top_bits x))⟩

/-- Settles O3: the fields as numbers, and the opcode map on a reserved op value. -/
theorem decodeReadsTheBitRanges : Obligations.DecodeReadsTheBitRanges := by
  intro w
  obtain ⟨hop, hr1, hr2⟩ := decodeFields_toNat w
  exact ⟨hop, hr1, hr2, decode_reserved⟩

end Sys2Proof

namespace Sys2Proof.Machine

/-- `sext8` is two's-complement sign extension to the register width (R75). -/
theorem sext8_eq_signExtend (raw : Field6) : sext8 raw = raw.signExtend 8 := by
  have hmsb : raw.msb = raw.getLsbD 5 := rfl
  have happend := BitVec.signExtend_eq_append_of_le (x := raw) (show 6 ≤ 8 by decide)
  rw [happend, hmsb, sext8]
  cases raw.getLsbD 5 <;> rfl

/-- The value of a sign-extended immediate (R75). -/
theorem sext8_toInt (raw : Field6) :
    (sext8 raw).toInt = if 32 ≤ raw.toNat then (raw.toNat : Int) - 64 else raw.toNat := by
  rw [sext8_eq_signExtend, BitVec.toInt_signExtend_of_le (by decide), BitVec.toInt_eq_toNat_cond]
  split <;> split <;> omega

/-- The bits of a sign-extended immediate (R75): bits 7:6 are copies of bit 5. -/
theorem sext8_eq_or (raw : Field6) :
    sext8 raw = if raw.getLsbD 5 then raw.setWidth 8 ||| 0xC0#8 else raw.setWidth 8 := by
  have hzero : raw.setWidth 8 = 0b00#2 ++ raw := BitVec.setWidth_eq_append (by decide)
  have hone : 0b11#2 ++ raw = (0b00#2 ++ raw) ||| (0b11#2 ++ 0#6) := by
    rw [BitVec.or_append, BitVec.zero_or, BitVec.or_zero]
  rw [sext8, hzero, hone]
  rfl

/-- Settles O6: the value and the bits of `sext8`. -/
theorem signExtensionOfImmediates : Obligations.SignExtensionOfImmediates :=
  fun raw => ⟨sext8_toInt raw, sext8_eq_or raw⟩

/-- A reserved opcode emits its diagnostic, whatever its fields hold (R79, R170). -/
theorem exec_unknown (op : OpField) (r1 r2 : Field6) (s : State) :
    exec (.unknown op r1 r2) s = .next (emitDiag s s.e.opc s.e.word) := rfl

/-- Settles O23: the word decodes to the unknown outcome, whose one update is the diagnostic event. -/
theorem reservedOpcodesOnlyReport : Obligations.ReservedOpcodesOnlyReport := by
  intro w s hw
  obtain ⟨hopNat, -, -⟩ := decodeFields_toNat w
  have hop : (decodeFields w).op.Reserved := le_of_le_of_eq hw hopNat.symm
  have hdecode := decode_reserved hop
  have hexec : exec (decode w) s = .next (emitDiag s s.e.opc s.e.word) := by rw [hdecode, exec_unknown]
  refine ⟨⟨_, _, _, hdecode⟩, ?_, emitDiag s s.e.opc s.e.word, .unknownOpcode s.e.opc s.e.word, hexec, ?_⟩
  · intro op op' r1 r1' r2 r2'
    rw [exec_unknown, exec_unknown]
  · exact ⟨emitDiag_diags s _ _, emitDiag_flush s _ _, emitDiag_sreg s _ _, readReg_emitDiag s _ _,
      dmemCell_emitDiag s _ _, exec_sameController hexec⟩

end Sys2Proof.Machine

/-! PROOFS. The flag unit (40_flag_unit.md): what each field of `updateFlags` answers, by kind. -/

namespace Sys2Proof.Machine

/-- Z for every kind (R101). -/
@[simp] theorem updateFlags_z_iff (r a b : Byte) (k : FlagKind) : (updateFlags r a b k).z = true ↔ r = 0x00 :=
  decide_eq_true_iff

/-- N for every kind (R102). -/
@[simp] theorem updateFlags_n (r a b : Byte) (k : FlagKind) : (updateFlags r a b k).n = r.getLsbD 7 := rfl

/-- S for every kind (R105). -/
theorem updateFlags_s (r a b : Byte) (k : FlagKind) :
    (updateFlags r a b k).s = ((updateFlags r a b k).n ^^ (updateFlags r a b k).v) := rfl

/-- C of the Add kind (R103): the carry out of bit 7. -/
@[simp] theorem updateFlags_add_c_iff (r a b : Byte) :
    (updateFlags r a b .add).c = true ↔ a.toNat + b.toNat > 255 :=
  decide_eq_true_iff

/-- C of the Sub kind (R103): the borrow. -/
@[simp] theorem updateFlags_sub_c_iff (r a b : Byte) : (updateFlags r a b .sub).c = true ↔ a.toNat < b.toNat :=
  decide_eq_true_iff

/-- C of the Logic kind (R103). -/
@[simp] theorem updateFlags_logic_c (r a b : Byte) : (updateFlags r a b .logic).c = false := rfl

/-- V of the Add kind (R104): equal operand signs that the result's sign differs from. -/
@[simp] theorem updateFlags_add_v_iff (r a b : Byte) :
    (updateFlags r a b .add).v = true ↔ a.getLsbD 7 = b.getLsbD 7 ∧ r.getLsbD 7 ≠ a.getLsbD 7 := by
  simp only [updateFlags, overflowFlag, Bool.and_eq_true, beq_iff_eq, bne_iff_ne]

/-- V of the Sub kind (R104): different operand signs, the result's sign being the second operand's. -/
@[simp] theorem updateFlags_sub_v_iff (r a b : Byte) :
    (updateFlags r a b .sub).v = true ↔ a.getLsbD 7 ≠ b.getLsbD 7 ∧ r.getLsbD 7 = b.getLsbD 7 := by
  simp only [updateFlags, overflowFlag, Bool.and_eq_true, beq_iff_eq, bne_iff_ne]

/-- V of the Logic kind (R104). -/
@[simp] theorem updateFlags_logic_v (r a b : Byte) : (updateFlags r a b .logic).v = false := rfl

/-- Settles O7: Z, N and S for every kind, then C and V kind by kind. -/
theorem updateFlagsByKind : Obligations.UpdateFlagsByKind := by
  intro r a b
  refine ⟨fun k => ⟨updateFlags_z_iff r a b k, ?_, updateFlags_s r a b k⟩,
    updateFlags_add_c_iff r a b, updateFlags_sub_c_iff r a b, updateFlags_logic_c r a b,
    updateFlags_add_v_iff r a b, updateFlags_sub_v_iff r a b, updateFlags_logic_v r a b⟩
  rw [updateFlags_n]

end Sys2Proof.Machine

/-! PROOFS. Arithmetic (41_arithmetic.md). First the word that an instruction encodes to; then what ends every
flag-affecting instruction; then truncation, which carries sums, differences and products of integers to those of
bytes, so that both readings of the operands give one result; then ADD, SUB and MUL. -/

namespace Sys2Proof

/-- Packing a field triple lays its fields side by side (R71, R73). -/
theorem encodeFields_layout (f : Fields) : encodeFields f = f.op ++ f.r1 ++ f.r2 := by
  obtain ⟨op, r1, r2⟩ := f
  have hop := op.isLt
  have hr1 := r1.isLt
  have hr2 := r2.isLt
  apply BitVec.eq_of_toNat_eq
  have happend : BitVec.toNat (w := 16) (op ++ r1 ++ r2) = (op.toNat <<< 6 ||| r1.toNat) <<< 6 ||| r2.toNat :=
    (BitVec.toNat_append (op ++ r1) r2).trans (by rw [BitVec.toNat_append])
  have hop' : op.toNat <<< 12 < 2 ^ 16 := by rw [Nat.shiftLeft_eq]; omega
  have hr1' : r1.toNat <<< 6 < 2 ^ 16 := by rw [Nat.shiftLeft_eq]; omega
  rw [happend, Nat.shiftLeft_or_distrib, ← Nat.shiftLeft_add]
  simp only [encodeFields, BitVec.toNat_or, BitVec.toNat_shiftLeft, BitVec.toNat_setWidth]
  rw [Nat.mod_eq_of_lt (a := op.toNat) (by omega), Nat.mod_eq_of_lt (a := r1.toNat) (by omega),
    Nat.mod_eq_of_lt (a := r2.toNat) (by omega), Nat.mod_eq_of_lt hop', Nat.mod_eq_of_lt hr1']

/-- The word of an instruction, as the layout of its fields (R71, R78). -/
theorem encode_layout (i : Instr) : encode i = (toFields i).op ++ (toFields i).r1 ++ (toFields i).r2 :=
  encodeFields_layout (toFields i)

/-- Decoding an encoded instruction reads the opcode map at its fields. -/
theorem decode_encode_eq (i : Instr) : decode (encode i) = ofFields (toFields i) := by
  rw [encode_layout, decode_layout]

/-- ADD R0 R0 encodes to the zero word (R80, R120 (e)). -/
theorem encode_add_zero_zero : encode (.add 0 0) = 0x0000 := by decide

/-- No other ADD does (R120 (e)): the word decodes back to its instruction. -/
theorem encode_add_eq_zero_iff (rd rs : RegIdx) : encode (.add rd rs) = 0x0000 ↔ rd = 0 ∧ rs = 0 := by
  constructor
  · intro h
    have hdecode : decode (encode (.add rd rs)) = .add rd rs :=
      (decode_encode_eq _).trans (Laws.FieldsRoundTrip.add rd rs trivial)
    have hzero : decode (encode (.add 0 0)) = .add 0 0 :=
      (decode_encode_eq _).trans (Laws.FieldsRoundTrip.add 0 0 trivial)
    rw [h, ← encode_add_zero_zero, hzero] at hdecode
    obtain ⟨hrd, hrs⟩ := Instr.add.inj hdecode
    exact ⟨hrd.symm, hrs.symm⟩
  · rintro ⟨rfl, rfl⟩
    exact encode_add_zero_zero

end Sys2Proof

namespace Sys2Proof.Machine

/-- Fetch takes the word of ADD R0 R0 as the end marker (R80, R206). -/
theorem fetchStage_endMarker {s : State} (hf : s.f.active = true)
    (hw : imemWord s s.pc.toNat = encode (.add 0 0)) : fetchStage s = { s with f := s.f.idle, eop := true } :=
  fetchStage_ends hf ((fetchEnds_iff s).mpr (.inr (hw.trans encode_add_zero_zero)))

/-! The reduced path is the Logic kind (R107, R113). -/

/-- S of the Logic kind is N, since V is 0 (R105). -/
@[simp] theorem updateFlags_logic_s (r a b : Byte) :
    (updateFlags r a b .logic).s = (updateFlags r a b .logic).n := by
  rw [updateFlags_s, updateFlags_logic_v, Bool.xor_false]

/-- The reduced path computes the Logic flags (R107): with V = 0, S = N xor V is N. -/
theorem flagsReduced_eq_flagsLogic (r : Byte) : flagsReduced r = flagsLogic r := by
  simp only [flagsReduced, flagsLogic, updateFlags, overflowFlag, carryFlag, Bool.bne_false]

/-! The end of a flag-affecting instruction (R108). -/

/-- The written register reads the result. -/
theorem readReg_writeResult_self (s : State) (rd : RegIdx) (r : Byte) (F : Flags) :
    readReg (writeResult s rd r F) rd = r := by
  rw [readReg_writeResult, readReg_writeReg_self]

/-- Bits 7:5 of `sreg` are zero after it. -/
theorem writeResult_sreg_top (s : State) (rd : RegIdx) (r : Byte) (F : Flags) :
    (writeResult s rd r F).sreg.extractLsb' 5 3 = 0 :=
  Flags.pack_top F

/-- Besides one register and `sreg` it leaves everything as before. -/
theorem writeResult_frame (s : State) (rd : RegIdx) (r : Byte) (F : Flags) :
    SameRegsExcept rd s (writeResult s rd r F) ∧ SameDmem s (writeResult s rd r F) ∧
      SameController s (writeResult s rd r F) ∧ NoEvent s (writeResult s rd r F) := by
  refine ⟨fun j hj => ?_, dmemCell_writeResult s rd r F, ?_, ?_⟩
  · rw [readReg_writeResult, readReg_writeReg_ne s hj]
  · simp [SameController]
  · simp [NoEvent]

/-! Truncation to 8 bits (R9, R123). -/

@[simp] theorem trunc8_add (m n : Int) : trunc8 (m + n) = trunc8 m + trunc8 n := BitVec.ofInt_add m n

@[simp] theorem trunc8_mul (m n : Int) : trunc8 (m * n) = trunc8 m * trunc8 n := BitVec.ofInt_mul m n

@[simp] theorem trunc8_sub (m n : Int) : trunc8 (m - n) = trunc8 m - trunc8 n := by
  rw [eq_sub_iff_add_eq, ← trunc8_add, Int.sub_add_cancel]

/-- The unsigned reading of a byte truncates to the byte. -/
@[simp] theorem trunc8_toNat (a : Byte) : trunc8 (a.toNat : Int) = a := by
  rw [trunc8, BitVec.ofInt_natCast, BitVec.ofNat_toNat, BitVec.setWidth_eq]

/-- So does the signed reading. -/
@[simp] theorem trunc8_toInt (a : Byte) : trunc8 a.toInt = a := BitVec.ofInt_toInt

/-- A difference of bytes as a number: the integer difference mod 256. -/
theorem toNat_sub_eq_emod (a b : Byte) : ((a - b).toNat : Int) = ((a.toNat : Int) - b.toNat) % 256 := by
  have ha := a.isLt
  have hb := b.isLt
  rw [BitVec.toNat_sub]
  omega

/-! The instructions. -/

/-- ADD writes the sum of its operands and the Add flags of the old operands (R120). -/
theorem exec_add (rd rs : RegIdx) (s : State) :
    exec (.add rd rs) s = .next (writeResult s rd (readReg s rd + readReg s rs)
      (updateFlags (readReg s rd + readReg s rs) (readReg s rd) (readReg s rs) .add)) := by
  simp only [exec, execAdd, flagsAdd, trunc8_add, trunc8_toNat]

/-- SUB writes the difference of its operands and the Sub flags of the old operands (R121). -/
theorem exec_sub (rd rs : RegIdx) (s : State) :
    exec (.sub rd rs) s = .next (writeResult s rd (readReg s rd - readReg s rs)
      (updateFlags (readReg s rd - readReg s rs) (readReg s rd) (readReg s rs) .sub)) := by
  simp only [exec, execSub, flagsSub, trunc8_sub, trunc8_toNat]

/-- MUL writes the product of its operands and the Logic flags of it, which the reduced path computes (R122). -/
theorem exec_mul (rd rs : RegIdx) (s : State) :
    exec (.mul rd rs) s = .next (writeResult s rd (readReg s rd * readReg s rs)
      (flagsLogic (readReg s rd * readReg s rs))) := by
  simp only [exec, execMul, flagsReduced_eq_flagsLogic, trunc8_mul, trunc8_toInt]

/-- Settles O11: the sum of the bytes with the Add flags, the frame of a written result, and the zero word as the
encoding that only ADD R0 R0 has. -/
theorem addExecutes : Obligations.AddExecutes := by
  intro rd rs s
  refine ⟨encode_layout (.add rd rs), encode_add_eq_zero_iff rd rs, fetchStage_endMarker, _, exec_add rd rs s, ?_⟩
  rw [readReg_writeResult_self, readFlags_writeResult, trunc8_add, trunc8_toInt, trunc8_toInt]
  exact ⟨BitVec.toNat_add .., rfl, updateFlags_z_iff .., updateFlags_n .., updateFlags_add_c_iff ..,
    updateFlags_add_v_iff .., updateFlags_s .., writeResult_sreg_top .., writeResult_frame ..⟩

/-- Settles O12: the difference of the bytes with the Sub flags, and the frame of a written result. -/
theorem subExecutes : Obligations.SubExecutes := by
  intro rd rs s
  refine ⟨encode_layout (.sub rd rs), _, exec_sub rd rs s, ?_⟩
  rw [readReg_writeResult_self, readFlags_writeResult, trunc8_sub, trunc8_toInt, trunc8_toInt]
  exact ⟨toNat_sub_eq_emod .., rfl, updateFlags_z_iff .., updateFlags_n .., updateFlags_sub_c_iff ..,
    updateFlags_sub_v_iff .., updateFlags_s .., writeResult_sreg_top .., writeResult_frame ..⟩

/-- Settles O13: the product of the bytes with the reduced flags, and the frame of a written result. -/
theorem mulExecutes : Obligations.MulExecutes := by
  intro rd rs s
  refine ⟨encode_layout (.mul rd rs), _, exec_mul rd rs s, ?_⟩
  rw [readReg_writeResult_self, readFlags_writeResult, trunc8_mul, trunc8_toInt, trunc8_toInt]
  exact ⟨rfl, BitVec.toNat_mul .., updateFlags_z_iff .., updateFlags_n .., updateFlags_logic_s ..,
    updateFlags_logic_c .., updateFlags_logic_v .., writeResult_sreg_top .., writeResult_frame ..⟩

end Sys2Proof.Machine

/-! PROOFS. Immediate move and logic (42_logic_immediate.md). First the two ends that these instructions have: a bare
register write (MOVI), and a result with its Logic flags (ANDI, EOR); then the instructions. -/

namespace Sys2Proof.Machine

/-- A register write leaves everything but that register as before. -/
theorem writeReg_frame (s : State) (rd : RegIdx) (v : Byte) :
    SameRegsExcept rd s (writeReg s rd v) ∧ SameDmem s (writeReg s rd v) ∧
      SameController s (writeReg s rd v) ∧ NoEvent s (writeReg s rd v) := by
  refine ⟨fun j hj => readReg_writeReg_ne s hj v, dmemCell_writeReg s rd v, ?_, ?_⟩
  · simp [SameController]
  · simp [NoEvent]

/-- A result written with its Logic flags (R108, R112): the register, the five flags of the result, bits 7:5 of
`sreg`, and the frame. -/
theorem writeResult_flagsLogic {s t : State} {rd : RegIdx} {r : Byte} (ht : t = writeResult s rd r (flagsLogic r)) :
    readReg t rd = r ∧
      ((readFlags t).z = true ↔ readReg t rd = 0x00) ∧
      (readFlags t).n = (readReg t rd).getLsbD 7 ∧ (readFlags t).s = (readFlags t).n ∧
      (readFlags t).c = false ∧ (readFlags t).v = false ∧
      t.sreg.extractLsb' 5 3 = 0 ∧
      SameRegsExcept rd s t ∧ SameDmem s t ∧ SameController s t ∧ NoEvent s t := by
  rw [ht, readReg_writeResult_self, readFlags_writeResult]
  exact ⟨rfl, updateFlags_z_iff .., updateFlags_n .., updateFlags_logic_s .., updateFlags_logic_c ..,
    updateFlags_logic_v .., writeResult_sreg_top .., writeResult_frame ..⟩

/-! The instructions. -/

/-- MOVI writes the sign-extended immediate and no flag (R130). -/
theorem exec_movi (rd : RegIdx) (imm : Field6) (s : State) :
    exec (.movi rd imm) s = .next (writeReg s rd (sext8 imm)) := rfl

/-- ANDI writes the register masked with the sign-extended immediate, and the Logic flags of it (R131). -/
theorem exec_andi (rd : RegIdx) (imm : Field6) (s : State) :
    exec (.andi rd imm) s =
      .next (writeResult s rd (readReg s rd &&& sext8 imm) (flagsLogic (readReg s rd &&& sext8 imm))) := rfl

/-- EOR writes the exclusive OR of its old operands, and the Logic flags of it (R132). -/
theorem exec_eor (rd rs : RegIdx) (s : State) :
    exec (.eor rd rs) s =
      .next (writeResult s rd (readReg s rd ^^^ readReg s rs) (flagsLogic (readReg s rd ^^^ readReg s rs))) := rfl

/-- Settles O14: the value of the sign-extended immediate, and the frame of a register write, which keeps `sreg`. -/
theorem moviExecutes : Obligations.MoviExecutes := by
  intro rd imm s
  refine ⟨encode_layout (.movi rd imm), _, exec_movi rd imm s, ?_, writeReg_sreg s rd _, writeReg_frame s rd _⟩
  rw [readReg_writeReg_self, sext8_toInt]

/-- Settles O15: the bits of the sign-extended mask, then a result written with its Logic flags. -/
theorem andiExecutes : Obligations.AndiExecutes := by
  intro rd imm s
  rw [← sext8_eq_or]
  exact ⟨encode_layout (.andi rd imm), _, exec_andi rd imm s, writeResult_flagsLogic rfl⟩

/-- Settles O16: a result written with its Logic flags, computed from the old operands even if they are one register. -/
theorem eorExecutes : Obligations.EorExecutes := by
  intro rd rs s
  exact ⟨encode_layout (.eor rd rs), _, exec_eor rd rs s, writeResult_flagsLogic rfl⟩

end Sys2Proof.Machine

/-! PROOFS. Load and store (45_load_store.md). First the data-address fold as an integer, and the address it gives an
immediate; then the frame of a cell write; then LDR and STR. -/

namespace Sys2Proof.Machine

/-- `wrap` as an integer: R162's formula, with no condition on the address, since the remainder is never negative. -/
theorem wrap_eq_emod (a : Int) : (wrap a : Int) = (2048 + a) % 2048 :=
  Int.toNat_of_nonneg (Int.emod_nonneg _ (by decide))

/-- `wrap` on the values an immediate can have: an address that is not negative stays, a negative one counts from
the end of data memory. -/
theorem wrap_of_immediate {a : Int} (hlo : -32 ≤ a) (hhi : a ≤ 31) :
    (wrap a : Int) = if 0 ≤ a then a else 2048 + a := by
  rw [wrap_eq_emod]
  split <;> omega

/-- Settles O25: the fold's formula, and its two cases on the range of an immediate. -/
theorem dataAddressFold : Obligations.DataAddressFold :=
  ⟨fun a _ => wrap_eq_emod a, fun _ hlo hhi => wrap_of_immediate hlo hhi⟩

/-- The cell an immediate names (R160, R163): the two's-complement value raw - 64 of a raw field of 32 and more folds
to 1984 + raw. -/
theorem dataAddr_eq (imm : Field6) :
    dataAddr imm = if 32 ≤ imm.toNat then 1984 + imm.toNat else imm.toNat := by
  have himm := imm.isLt
  have haddr : (dataAddr imm : Int) = (2048 + (sext8 imm).toInt) % 2048 := wrap_eq_emod _
  rw [sext8_toInt] at haddr
  split at haddr
  · next h =>
    rw [if_pos h]
    omega
  · next h =>
    rw [if_neg h]
    omega

/-- A cell write leaves everything but that cell as before, on any data memory. -/
theorem writeCell_frame (s : State) (a : Nat) (v : Byte) :
    SameDmemExcept a s (writeCell s a v) ∧ (writeCell s a v).sreg = s.sreg ∧ SameRegs s (writeCell s a v) ∧
      SameController s (writeCell s a v) ∧ NoEvent s (writeCell s a v) := by
  refine ⟨fun b hb => dmemCell_writeCell_ne s hb v, writeCell_sreg s a v, readReg_writeCell s a v, ?_, ?_⟩
  · simp [SameController]
  · simp [NoEvent]

/-- The written cell reads the value, on canonical data memory. -/
theorem dmemCell_writeCell_self {s : State} (hs : s.dmem.wf Config.dmemCells = true) (a : Nat) (v : Byte) :
    dmemCell (writeCell s a v) a = v := by
  rw [dmemCell_writeCell hs, if_pos rfl]

/-! The instructions. -/

/-- LDR writes the cell its immediate names into a register, and no flag (R160). -/
theorem exec_ldr (rd : RegIdx) (imm : Field6) (s : State) :
    exec (.ldr rd imm) s = .next (writeReg s rd (dmemCell s (dataAddr imm))) :=
  execLdr_eq rd imm s

/-- STR writes a register into the cell its immediate names, and nothing else (R161). -/
theorem exec_str (rs : RegIdx) (imm : Field6) (s : State) :
    exec (.str rs imm) s = .next (writeCell s (dataAddr imm) (readReg s rs)) :=
  execStr_eq rs imm s

/-- Settles O21: the cell at the immediate's address, and the frame of a register write, which keeps `sreg`. -/
theorem ldrExecutes : Obligations.LdrExecutes := by
  intro rd imm s
  refine ⟨encode_layout (.ldr rd imm), _, exec_ldr rd imm s, ?_, writeReg_sreg s rd _, writeReg_frame s rd _⟩
  rw [readReg_writeReg_self, dataAddr_eq]

/-- Settles O22: the register in the cell at the immediate's address, and the frame of a cell write. -/
theorem strExecutes : Obligations.StrExecutes := by
  intro rs imm s
  exact ⟨encode_layout (.str rs imm), dataAddr_eq imm, _, exec_str rs imm s,
    fun hs => dmemCell_writeCell_self hs _ _, writeCell_frame s _ _⟩

end Sys2Proof.Machine

/-! PROOFS. The cycle, decode and fetch (70_reset_and_hazards.md). First what a record holds after decode or fetch and
what execute does to the cycle counter; then the counted cycle, and the two sub-steps. -/

namespace Sys2Proof.Machine

/-- A record made from a word holds that word's decoded fields (R36). -/
theorem StageRecord.ofWord_decoded (w : Word) (opc : PcAddr) : (StageRecord.ofWord w opc).Decoded := rfl

/-- Execute does not count: an idle E does nothing, no instruction writes the counter, and retiring E keeps it. -/
theorem executeStage_cycles {s t : State} (h : executeStage s = .next t) : t.cycles = s.cycles := by
  cases he : s.e.active with
  | false =>
    rw [executeStage_idle he] at h
    obtain rfl := Host.Outcome.next.inj h
    rfl
  | true =>
    obtain ⟨u, hu, -⟩ := exec_cases s.e.instr s
    rw [executeStage_active he hu] at h
    obtain rfl := Host.Outcome.next.inj h
    obtain ⟨-, -, -, -, -, -, hcycles⟩ := exec_sameController hu
    exact hcycles

/-- Settles O38: the cycle counts at its start, and none of the four sub-steps touches the counter. -/
theorem eachCycleIsCounted : Obligations.EachCycleIsCounted := by
  intro s u hrun hstep
  obtain ⟨hhalted, -⟩ | ⟨-, t, ht, rfl⟩ := step_cases hstep
  · exact absurd (hhalted.symm.trans hrun) (by decide)
  · calc (fetchStage (decodeStage t)).cycles
      _ = t.cycles := by rw [fetchStage_cycles, decodeStage_cycles]
      _ = (flushStage false (countCycle s)).cycles := executeStage_cycles ht
      _ = s.cycles + 1 := flushStage_cycles false (countCycle s)

/-- Settles O31: an idle D by `decodeStage_idle`; an active D's word is the one the new E is made from. -/
theorem decodeMovesTheWord : Obligations.DecodeMovesTheWord := fun s =>
  ⟨decodeStage_idle, fun hd =>
    ⟨_, decodeStage_active hd, rfl, rfl, rfl, StageRecord.ofWord_decoded s.d.word s.d.opc, rfl, rfl⟩⟩

/-- An address of instruction memory has a successor that does not wrap (R206): `pc` has 16 bits. -/
theorem pc_add_one_toNat {pc : PcAddr} (h : pc.toNat < Config.imemWords) : (pc + 1).toNat = pc.toNat + 1 := by
  have hlt : pc.toNat < 1024 := h
  exact BitVec.toNat_add_of_lt (show pc.toNat + 1 < 2 ^ 16 by omega)

/-- Settles O32: fetch disabled, ending the program, or bringing in the word at an address whose successor does not
wrap. -/
theorem fetchRule : Obligations.FetchRule := by
  intro s
  refine ⟨fetchStage_disabled, fun hf hend => fetchStage_ends hf ((fetchEnds_iff s).mpr hend), fun hf hpc hword => ?_⟩
  have hgoes : fetchEnds s = false := (fetchEnds_eq_false s).mpr ⟨hpc, hword⟩
  exact ⟨_, fetchStage_fetches hf hgoes, rfl, rfl, rfl, StageRecord.ofWord_decoded _ _, rfl, rfl, rfl,
    pc_add_one_toNat hpc, rfl⟩

end Sys2Proof.Machine

/-! PROOFS. The codec both ways (30_encoding.md R72, R73): the opcode map and the fields of an instruction are
inverse to each other, and so are a word and its field triple. -/

namespace Sys2Proof

/-- The fields of a well-formed instruction select that instruction, for every row of the opcode map. -/
theorem ofFields_toFields {i : Instr} (h : i.WellFormed) : ofFields (toFields i) = i := by
  cases i with
  | add rd rs => exact Laws.FieldsRoundTrip.add rd rs h
  | sub rd rs => exact Laws.FieldsRoundTrip.sub rd rs h
  | mul rd rs => exact Laws.FieldsRoundTrip.mul rd rs h
  | movi rd imm => exact Laws.FieldsRoundTrip.movi rd imm h
  | beqz rt off => exact Laws.FieldsRoundTrip.beqz rt off h
  | andi rd imm => exact Laws.FieldsRoundTrip.andi rd imm h
  | eor rd rs => exact Laws.FieldsRoundTrip.eor rd rs h
  | br rh rl => exact Laws.FieldsRoundTrip.br rh rl h
  | sal rd n => exact Laws.FieldsRoundTrip.sal rd n h
  | sar rd n => exact Laws.FieldsRoundTrip.sar rd n h
  | ldr rd imm => exact Laws.FieldsRoundTrip.ldr rd imm h
  | str rs imm => exact Laws.FieldsRoundTrip.str rs imm h
  | unknown op r1 r2 => exact Laws.FieldsRoundTrip.unknown op r1 r2 h

/-- A triple with the op value `op` is the triple of its operand fields under `op`. -/
theorem Fields.eq_of_op_toNat {f : Fields} {op : OpField} (h : f.op.toNat = op.toNat) : ⟨op, f.r1, f.r2⟩ = f := by
  rw [← BitVec.eq_of_toNat_eq h]

/-- The opcode map answers a well-formed instruction, and no field is lost: the op value by the row, the operand
fields by their readings, and all three as they are in a reserved row. -/
theorem ofFields_wellFormed_and_toFields (f : Fields) : (ofFields f).WellFormed ∧ toFields (ofFields f) = f := by
  unfold ofFields
  split
  case h_13 =>
    have hreserved : 12 ≤ f.op.toNat := by
      simp only [imp_false] at *
      omega
    exact ⟨hreserved, rfl⟩
  all_goals
    refine ⟨trivial, ?_⟩
    simp only [toFields, regBits_regOf]
    exact Fields.eq_of_op_toNat ‹_›

@[simp] theorem toFields_ofFields (f : Fields) : toFields (ofFields f) = f := (ofFields_wellFormed_and_toFields f).2

/-- A triple read back from its word. -/
theorem decodeFields_encodeFields (f : Fields) : decodeFields (encodeFields f) = f := by
  rw [encodeFields_layout, decodeFields_layout]

/-- The word of a triple as a number. -/
theorem encodeFields_toNat (f : Fields) :
    (encodeFields f).toNat = f.op.toNat * 4096 + f.r1.toNat * 64 + f.r2.toNat := by
  rw [encodeFields_layout]
  exact toNat_layout f.op f.r1 f.r2

/-- A word is the word of its triple: the three bit ranges cover it. -/
theorem encodeFields_decodeFields (w : Word) : encodeFields (decodeFields w) = w := by
  obtain ⟨hop, hr1, hr2⟩ := decodeFields_toNat w
  apply BitVec.eq_of_toNat_eq
  rw [encodeFields_toNat, hop, hr1, hr2]
  omega

/-- Settles O1: both halves compose the inverse of the opcode map with that of the field triple. -/
theorem decodeAndEncodeAgree : Obligations.DecodeAndEncodeAgree := by
  refine ⟨fun i hi => (decode_encode_eq i).trans (ofFields_toFields hi), fun w => ?_⟩
  obtain ⟨hwf, hfields⟩ := ofFields_wellFormed_and_toFields (decodeFields w)
  refine ⟨hwf, ?_⟩
  calc encode (decode w)
    _ = encodeFields (decodeFields w) := congrArg encodeFields hfields
    _ = w := encodeFields_decodeFields w

/-- Settles O2: the triple back from the layout of its word, and the layout as a number. -/
theorem fieldTripleRoundTrip : Obligations.FieldTripleRoundTrip :=
  fun f => ⟨decodeFields_encodeFields f, encodeFields_toNat f⟩

/-- Settles O5: nine fixed words, evaluated. -/
theorem decodeOfSampleWords : Obligations.DecodeOfSampleWords := by
  unfold Obligations.DecodeOfSampleWords
  decide

end Sys2Proof

/-! PROOFS. The flag unit against the exact result (40_flag_unit.md R107, R113, R114), and the packed byte
(10_state.md R27). -/

namespace Sys2Proof.Machine

/-- The signed reading of a byte is in the range of 8 bits. -/
theorem byte_toInt_bounds (a : Byte) : -128 ≤ a.toInt ∧ a.toInt ≤ 127 :=
  ⟨BitVec.le_toInt a, Int.lt_add_one_iff.mp a.toInt_lt⟩

/-- A result of one bit too many reads, after truncation, one full turn away. -/
theorem toInt_trunc8 {z : Int} (hlo : -256 ≤ z) (hhi : z < 256) :
    (trunc8 z).toInt = if z < -128 then z + 256 else if 127 < z then z - 256 else z := by
  rw [trunc8, BitVec.toInt_ofInt, Int.bmod_def]
  norm_num
  split_ifs <;> omega

/-- The sum of bytes as a signed number. -/
theorem toInt_add_eq (a b : Byte) :
    (a + b).toInt =
      if a.toInt + b.toInt < -128 then a.toInt + b.toInt + 256
      else if 127 < a.toInt + b.toInt then a.toInt + b.toInt - 256 else a.toInt + b.toInt := by
  have ha := byte_toInt_bounds a
  have hb := byte_toInt_bounds b
  rw [← toInt_trunc8 (by omega) (by omega), trunc8_add, trunc8_toInt, trunc8_toInt]

/-- The difference of bytes as a signed number. -/
theorem toInt_sub_eq (a b : Byte) :
    (a - b).toInt =
      if a.toInt - b.toInt < -128 then a.toInt - b.toInt + 256
      else if 127 < a.toInt - b.toInt then a.toInt - b.toInt - 256 else a.toInt - b.toInt := by
  have ha := byte_toInt_bounds a
  have hb := byte_toInt_bounds b
  rw [← toInt_trunc8 (by omega) (by omega), trunc8_sub, trunc8_toInt, trunc8_toInt]

/-- Bit 7 is the sign. -/
theorem getLsbD_seven_iff (r : Byte) : r.getLsbD 7 = true ↔ r.toInt < 0 := by
  rw [show r.getLsbD 7 = r.msb from (BitVec.msb_eq_getLsbD_last r).symm, BitVec.msb_eq_toInt, decide_eq_true_iff]

theorem getLsbD_seven_eq_iff (r a : Byte) : r.getLsbD 7 = a.getLsbD 7 ↔ (r.toInt < 0 ↔ a.toInt < 0) := by
  rw [Bool.eq_iff_iff, getLsbD_seven_iff, getLsbD_seven_iff]

/-- S for every kind, by the sign of the result: N xor V (R105). -/
theorem updateFlags_s_iff (r a b : Byte) (k : FlagKind) :
    (updateFlags r a b k).s = true ↔ ¬ (r.toInt < 0 ↔ (updateFlags r a b k).v = true) := by
  rw [updateFlags_s, updateFlags_n, Bool.xor_iff_ne, ne_eq, Bool.eq_iff_iff, getLsbD_seven_iff]

/-- V of a sum: the exact sum does not fit (R114). -/
theorem flagsAdd_v_iff (a b : Byte) :
    (flagsAdd a b (a + b)).v = true ↔ a.toInt + b.toInt < -128 ∨ 127 < a.toInt + b.toInt := by
  have ha := byte_toInt_bounds a
  have hb := byte_toInt_bounds b
  have hsum := toInt_add_eq a b
  rw [flagsAdd, updateFlags_add_v_iff, ne_eq, getLsbD_seven_eq_iff, getLsbD_seven_eq_iff]
  split_ifs at hsum <;> omega

/-- V of a difference: the exact difference does not fit (R114). -/
theorem flagsSub_v_iff (a b : Byte) :
    (flagsSub a b (a - b)).v = true ↔ a.toInt - b.toInt < -128 ∨ 127 < a.toInt - b.toInt := by
  have ha := byte_toInt_bounds a
  have hb := byte_toInt_bounds b
  have hdiff := toInt_sub_eq a b
  rw [flagsSub, updateFlags_sub_v_iff, ne_eq, getLsbD_seven_eq_iff, getLsbD_seven_eq_iff]
  split_ifs at hdiff <;> omega

/-- S of a sum: its true sign, since V says when the truncated sum has the other one (R114). -/
theorem flagsAdd_s_iff (a b : Byte) : (flagsAdd a b (a + b)).s = true ↔ a.toInt + b.toInt < 0 := by
  have ha := byte_toInt_bounds a
  have hb := byte_toInt_bounds b
  have hsum := toInt_add_eq a b
  rw [flagsAdd, updateFlags_s_iff, ← flagsAdd, flagsAdd_v_iff]
  split_ifs at hsum <;> omega

/-- S of a difference: its true sign (R114). -/
theorem flagsSub_s_iff (a b : Byte) : (flagsSub a b (a - b)).s = true ↔ a.toInt - b.toInt < 0 := by
  have ha := byte_toInt_bounds a
  have hb := byte_toInt_bounds b
  have hdiff := toInt_sub_eq a b
  rw [flagsSub, updateFlags_s_iff, ← flagsSub, flagsSub_v_iff]
  split_ifs at hdiff <;> omega

/-- A borrow excludes a zero difference: equal operands borrow nothing (R114). -/
theorem not_flagsSub_c_and_z (a b : Byte) :
    ¬ ((flagsSub a b (a - b)).c = true ∧ (flagsSub a b (a - b)).z = true) := by
  rw [flagsSub, updateFlags_sub_c_iff, updateFlags_z_iff]
  rintro ⟨hborrow, hzero⟩
  obtain rfl : a = b := sub_eq_zero.mp hzero
  exact lt_irrefl _ hborrow

/-- Settles O9: S and V of the sum and of the difference, and the borrow. -/
theorem flagsTellTheExactResult : Obligations.FlagsTellTheExactResult := fun a b =>
  ⟨flagsAdd_s_iff a b, flagsAdd_v_iff a b, flagsSub_s_iff a b, flagsSub_v_iff a b, not_flagsSub_c_and_z a b⟩

/-- Settles O8: the reduced record field by field, and that it is the Logic record. -/
theorem reducedPathFlags : Obligations.ReducedPathFlags := fun r =>
  ⟨decide_eq_true_iff, rfl, rfl, rfl, rfl, flagsReduced_eq_flagsLogic r⟩

/-- The packed record as a number: one power of two per flag, at the positions of decision D1. -/
theorem Flags.pack_toNat (F : Flags) :
    F.pack.toNat = F.z.toNat + 2 * F.s.toNat + 4 * F.n.toNat + 8 * F.v.toNat + 16 * F.c.toNat := by
  obtain ⟨z, s, n, v, c⟩ := F
  revert z s n v c
  decide

/-- Settles O10: the packed byte as a number, and its read-back. -/
theorem packedStatusByte : Obligations.PackedStatusByte := fun F => ⟨F.pack_toNat, F.unpack_pack⟩

end Sys2Proof.Machine

/-! PROOFS. Shifts (43_shift.md): the exact arithmetic of R140 and R141 is the shift of bits, at every count. -/

namespace Sys2Proof.Machine

/-- SAL's exact arithmetic is the left shift of the byte (R140). -/
theorem shiftLeft_eq (a : Byte) (n : Nat) : shiftLeft a n = a <<< n := by
  apply BitVec.eq_of_toNat_eq
  have hcast : (a.toNat * 2 ^ n : Int) = ((a.toNat * 2 ^ n : Nat) : Int) := by push_cast; rfl
  rw [shiftLeft, trunc8, hcast, BitVec.ofInt_natCast, BitVec.toNat_ofNat, BitVec.toNat_shiftLeft, Nat.shiftLeft_eq]

/-- The left-shifted byte as a number. -/
theorem shiftLeft_toNat (a : Byte) (n : Nat) : (shiftLeft a n).toNat = a.toNat * 2 ^ n % 256 := by
  rw [shiftLeft_eq, BitVec.toNat_shiftLeft, Nat.shiftLeft_eq]

/-- Counts of 8 and more shift everything out (decision D10). -/
theorem shiftLeft_eq_zero (a : Byte) {n : Nat} (h : 8 ≤ n) : shiftLeft a n = 0x00 := by
  rw [shiftLeft_eq, BitVec.shiftLeft_eq_zero h]
  rfl

/-- The quotient of R141, rounded toward minus infinity, is the arithmetic shift of integers. -/
theorem fdiv_two_pow (z : Int) (n : Nat) : Int.fdiv z (2 ^ n) = z >>> n := by
  rw [Int.shiftRight_eq_div_pow, Int.fdiv_eq_ediv_of_nonneg z (by positivity)]
  norm_cast

/-- SAR's exact arithmetic is the arithmetic right shift of the byte (R141). -/
theorem shiftRightArith_eq (a : Byte) (n : Nat) : shiftRightArith a n = a.sshiftRight n := by
  rw [shiftRightArith, trunc8, fdiv_two_pow]
  rfl

/-- No truncation takes place: the right-shifted byte reads the exact quotient. -/
theorem shiftRightArith_toInt (a : Byte) (n : Nat) : (shiftRightArith a n).toInt = Int.fdiv a.toInt (2 ^ n) := by
  rw [shiftRightArith_eq, BitVec.toInt_sshiftRight, fdiv_two_pow]

/-- The sign stays. -/
theorem shiftRightArith_sign (a : Byte) (n : Nat) : (shiftRightArith a n).getLsbD 7 = a.getLsbD 7 := by
  have hmsb : (a.sshiftRight n).msb = a.msb := BitVec.msb_sshiftRight
  rw [shiftRightArith_eq]
  rwa [BitVec.msb_eq_getLsbD_last, BitVec.msb_eq_getLsbD_last] at hmsb

/-- Counts of 8 and more leave the sign alone in every bit (decision D10). -/
theorem shiftRightArith_fill (a : Byte) {n : Nat} (h : 8 ≤ n) :
    shiftRightArith a n = if a.toInt < 0 then 0xFF else 0x00 := by
  rw [shiftRightArith_eq]
  split
  · next hneg =>
    have hmsb : a.msb = true := by rw [BitVec.msb_eq_toInt, decide_eq_true hneg]
    rw [BitVec.sshiftRight_eq_of_msb_true hmsb, BitVec.ushiftRight_eq_zero h]
    rfl
  · next hpos =>
    have hmsb : a.msb = false := by rw [BitVec.msb_eq_toInt, decide_eq_false hpos]
    rw [BitVec.sshiftRight_eq_of_msb_false hmsb, BitVec.ushiftRight_eq_zero h]
    rfl

/-- SAL writes the shifted register and the Logic flags of it, which the reduced path computes (R140). -/
theorem exec_sal (rd : RegIdx) (n : Field6) (s : State) :
    exec (.sal rd n) s = .next (writeResult s rd (shiftLeft (readReg s rd) n.toNat)
      (flagsLogic (shiftLeft (readReg s rd) n.toNat))) := by
  rw [← flagsReduced_eq_flagsLogic]
  rfl

/-- SAR writes the shifted register and the Logic flags of it, which the reduced path computes (R141). -/
theorem exec_sar (rd : RegIdx) (n : Field6) (s : State) :
    exec (.sar rd n) s = .next (writeResult s rd (shiftRightArith (readReg s rd) n.toNat)
      (flagsLogic (shiftRightArith (readReg s rd) n.toNat))) := by
  rw [← flagsReduced_eq_flagsLogic]
  rfl

/-- Settles O17: the shifted value at every count, then a result written with its Logic flags. -/
theorem salExecutes : Obligations.SalExecutes := by
  intro rd n s
  obtain ⟨hvalue, hrest⟩ := writeResult_flagsLogic (s := s) (rd := rd) (r := shiftLeft (readReg s rd) n.toNat) rfl
  exact ⟨encode_layout (.sal rd n), _, exec_sal rd n s, (congrArg BitVec.toNat hvalue).trans (shiftLeft_toNat _ _),
    fun hn => hvalue.trans (shiftLeft_eq_zero _ hn), hrest⟩

/-- Settles O18: the exact quotient, the sign fill and the unchanged sign, then a result written with its Logic
flags. -/
theorem sarExecutes : Obligations.SarExecutes := by
  intro rd n s
  obtain ⟨hvalue, hz, hn, hrest⟩ :=
    writeResult_flagsLogic (s := s) (rd := rd) (r := shiftRightArith (readReg s rd) n.toNat) rfl
  refine ⟨encode_layout (.sar rd n), _, exec_sar rd n s, ?_, ?_, hz, ?_, hrest⟩
  · rw [hvalue, shiftRightArith_toInt]
  · exact fun hcount => hvalue.trans (shiftRightArith_fill _ hcount)
  · rw [hn, hvalue, shiftRightArith_sign]

end Sys2Proof.Machine

/-! PROOFS. Control transfer (44_control_transfer.md) and the diagnostic of a reserved opcode (60_exceptions.md
R181). -/

namespace Sys2Proof.Machine

/-- A flush request leaves everything else as before. -/
theorem requestFlush_frame (s : State) (t : PcAddr) :
    (requestFlush s t).diags = s.diags ∧ (requestFlush s t).sreg = s.sreg ∧ SameRegs s (requestFlush s t) ∧
      SameDmem s (requestFlush s t) ∧ SameController s (requestFlush s t) := by
  refine ⟨rfl, rfl, readReg_requestFlush s t, dmemCell_requestFlush s t, ?_⟩
  simp [SameController]

/-- The BEQZ target with the raw offset zero-extended (R150). -/
theorem beqzTarget_eq (opc : PcAddr) (off : Field6) : beqzTarget opc off = opc + 1 + off.setWidth 16 := by
  rw [beqzTarget, rawImm, BitVec.ofNat_toNat]

/-- The BR target as a number: the low 10 bits of the OR (R151, decision D9). -/
theorem brTarget_toNat (h l : Byte) : (brTarget h l).toNat = (h.toNat <<< 6 ||| l.toNat) % 1024 := by
  have hh := h.isLt
  have hl := l.isLt
  have hshift : h.toNat <<< 6 < 2 ^ 16 := by rw [Nat.shiftLeft_eq]; omega
  have hor : (h.setWidth 16 <<< 6 ||| l.setWidth 16).toNat = h.toNat <<< 6 ||| l.toNat := by
    rw [BitVec.toNat_or, BitVec.toNat_shiftLeft, BitVec.toNat_setWidth_of_le (by decide),
      BitVec.toNat_setWidth_of_le (by decide), Nat.mod_eq_of_lt hshift]
  rw [brTarget, BitVec.toNat_setWidth_of_le (by decide), BitVec.extractLsb'_toNat, Nat.shiftRight_zero, hor]

/-- With bits 7:6 of the second register clear, the OR is a sum (R151). -/
theorem brTarget_toNat_of_lt (h : Byte) {l : Byte} (hl : l.toNat < 64) :
    (brTarget h l).toNat = 64 * (h.toNat % 16) + l.toNat := by
  rw [brTarget_toNat, ← Nat.shiftLeft_add_eq_or_of_lt hl, Nat.shiftLeft_eq]
  omega

/-- Taken, BEQZ requests a flush to the target from its own address (R150, decision D8). -/
theorem exec_beqz_taken {rt : RegIdx} {s : State} (h : readReg s rt = 0x00) (off : Field6) :
    exec (.beqz rt off) s = .next (requestFlush s (beqzTarget s.e.opc off)) :=
  execBeqz_taken h off

/-- Not taken, BEQZ does nothing (R150). -/
theorem exec_beqz_notTaken {rt : RegIdx} {s : State} (h : readReg s rt ≠ 0x00) (off : Field6) :
    exec (.beqz rt off) s = .next s :=
  execBeqz_notTaken h off

/-- BR requests a flush to the target formed from its registers (R151). -/
theorem exec_br (rh rl : RegIdx) (s : State) :
    exec (.br rh rl) s = .next (requestFlush s (brTarget (readReg s rh) (readReg s rl))) := rfl

/-- Settles O20: the target as a number, and the frame of a flush request. -/
theorem brExecutes : Obligations.BrExecutes := by
  intro rh rl s
  exact ⟨encode_layout (.br rh rl), _, brTarget (readReg s rh) (readReg s rl), exec_br rh rl s, requestFlush_flush s _,
    brTarget_toNat _ _, brTarget_toNat_of_lt _, requestFlush_frame s _⟩

/-- Settles O19: not taken nothing happens; taken, the target and the frame of a flush request. -/
theorem beqzExecutes : Obligations.BeqzExecutes := by
  intro rt off s
  refine ⟨encode_layout (.beqz rt off), fun h => exec_beqz_notTaken h off, fun h => ?_⟩
  refine ⟨_, exec_beqz_taken h off, ?_, requestFlush_frame s _⟩
  rw [requestFlush_flush, beqzTarget_eq]

/-- Settles O54: a BEQZ target is a sum that does not wrap, with an offset of at most 63; a BR target exists. -/
theorem branchTargetsInRange : Obligations.BranchTargetsInRange := by
  refine ⟨fun opc off hopc => ?_, fun h l => Nat.le_of_lt_succ (brTarget_lt h l)⟩
  have hoff := off.isLt
  have htarget := beqzTarget_toNat hopc off
  exact ⟨htarget, by omega, by omega⟩

/-- Settles O24: the one update of a reserved opcode, written out. -/
theorem diagnosticCarriesAddressAndWord : Obligations.DiagnosticCarriesAddressAndWord :=
  exec_unknown

end Sys2Proof.Machine

/-! PROOFS. What execute, flush and fetch do to the controller, said once for the statements about whole cycles. -/

namespace Sys2Proof.Machine

/-- Making an Idle record Idle changes nothing. -/
theorem StageRecord.idle_of_inactive {r : StageRecord} (h : r.active = false) : r.idle = r := by
  rw [StageRecord.idle, ← h]

/-- The execute sub-step by cases: nothing, or the instruction in E and its retirement. -/
theorem executeStage_cases {s t : State} (h : executeStage s = .next t) :
    (s.e.active = false ∧ t = s) ∨
      (s.e.active = true ∧ ∃ x, exec s.e.instr s = .next x ∧ t = retire x) := by
  cases he : s.e.active with
  | false =>
    rw [executeStage_idle he] at h
    exact .inl ⟨rfl, (Host.Outcome.next.inj h).symm⟩
  | true =>
    obtain ⟨x, hx, -⟩ := exec_cases s.e.instr s
    rw [executeStage_active he hx] at h
    exact .inr ⟨rfl, x, hx, (Host.Outcome.next.inj h).symm⟩

/-- What the execute sub-step does to the controller: it makes E Idle. -/
theorem executeStage_controller {s t : State} (h : executeStage s = .next t) :
    t.pc = s.pc ∧ t.imem = s.imem ∧ t.f = s.f ∧ t.d = s.d ∧ t.e = s.e.idle ∧ t.eop = s.eop ∧
      t.cycles = s.cycles := by
  obtain ⟨he, rfl⟩ | ⟨-, x, hx, rfl⟩ := executeStage_cases h
  · simp [StageRecord.idle_of_inactive he]
  · obtain ⟨hpc, himem, hf, hd, hE, heop, hcycles⟩ := exec_sameController hx
    simp [hpc, himem, hf, hd, hE, heop, hcycles]

/-- After the flush sub-step `pc` is the pending target, if there is one (R203). -/
theorem flushStage_pc (b : Bool) (s : State) : (flushStage b s).pc = s.flush.getD s.pc := by
  unfold flushStage; split <;> simp [*]

/-- At the spec's FLUSH_REARMS_FETCH a flush leaves F (R210, decision D11). -/
@[simp] theorem flushStage_false_f (s : State) : (flushStage false s).f = s.f := by
  unfold flushStage; split <;> rfl

/-- After the decode sub-step D is Idle (R205). -/
@[simp] theorem decodeStage_d_active (s : State) : (decodeStage s).d.active = false := by
  cases h : s.d.active with
  | false => rw [decodeStage_idle h, h]
  | true => rw [decodeStage_active h]; rfl

@[simp] theorem imemWord_decodeStage (s : State) (a : Nat) : imemWord (decodeStage s) a = imemWord s a := by
  rw [imemWord, decodeStage_imem]; rfl

/-- A state with fetch enabled is not Halted. -/
theorem halted_eq_false_of_f {s : State} (h : s.f.active = true) : halted s = false := by
  simp [halted, haltedWith, h]

theorem halted_eq_false_of_d {s : State} (h : s.d.active = true) : halted s = false := by
  simp [halted, haltedWith, h]

theorem halted_eq_false_of_e {s : State} (h : s.e.active = true) : halted s = false := by
  simp [halted, haltedWith, h]

end Sys2Proof.Machine

/-! PROOFS. The invariant of the reachable states (10_state.md, 20_memory.md section 1): it holds at reset, and each
sub-step of a cycle keeps it. -/

namespace Sys2Proof.Machine

/-- A record is live where instruction memory is the same. -/
theorem LiveIn.of_imem {s t : State} {r : StageRecord} (h : LiveIn s r) (himem : t.imem = s.imem) : LiveIn t r := by
  obtain ⟨hlt, hword, hne⟩ := h
  refine ⟨hlt, ?_, hne⟩
  rw [imemWord, himem]
  exact hword

/-- A word that fetch brings in is live. -/
theorem liveIn_ofWord {s : State} (h : fetchEnds s = false) :
    LiveIn s (StageRecord.ofWord (imemWord s s.pc.toNat) s.pc) := by
  obtain ⟨hlt, hne⟩ := (fetchEnds_eq_false s).mp h
  exact ⟨hlt, rfl, hne⟩

/-- The invariant is about neither the registers nor the cycle counter nor the events: it depends on the controller's
state, and asks of data memory, `sreg` and the flush request what its fields say. -/
theorem CoreInv.of_sameController {s t : State} (h : CoreInv s) (hc : SameController s t)
    (hdmem : t.dmem.wf Config.dmemCells = true) (hsreg : t.sreg.extractLsb' 5 3 = 0)
    (hflush : ∀ a, t.flush = some a → a.toNat ≤ maxPc) : CoreInv t := by
  obtain ⟨hpc, himem, hf, hd, he, heop, -⟩ := hc
  constructor
  case dmem_wf => exact hdmem
  case sreg_top => exact hsreg
  case flush_le => exact hflush
  case imem_wf => rw [himem]; exact h.imem_wf
  case pc_le => rw [hpc]; exact h.pc_le
  case fetch_until_eop => rw [heop, hf]; exact h.fetch_until_eop
  case f_decoded => rw [hf]; exact h.f_decoded
  case d_decoded => rw [hd]; exact h.d_decoded
  case e_decoded => rw [he]; exact h.e_decoded
  case d_live => rw [hd]; exact fun ha => (h.d_live ha).of_imem himem
  case e_live => rw [he]; exact fun ha => (h.e_live ha).of_imem himem
  case d_place => rw [hd, hpc]; exact h.d_place
  case e_place => rw [he, hd, hpc]; exact h.e_place

theorem CoreInv.countCycle {s : State} (h : CoreInv s) : CoreInv (countCycle s) := { h with }

/-- Dropping E keeps the invariant. -/
theorem CoreInv.retire {s : State} (h : CoreInv s) : CoreInv (retire s) :=
  { h with
    e_live := fun ha => absurd ha Bool.false_ne_true
    e_place := fun ha => absurd ha Bool.false_ne_true }

/-- A flush goes on at a target that the invariant bounds, and leaves D and E Idle. -/
theorem CoreInv.flushStage {s : State} (h : CoreInv s) : CoreInv (flushStage false s) := by
  cases hf : s.flush with
  | none => rw [flushStage_none hf]; exact h
  | some t =>
    rw [flushStage_pending hf]
    exact { h with
      pc_le := h.flush_le t hf
      flush_le := fun _ ha => absurd ha (by simp)
      d_live := fun ha => absurd ha Bool.false_ne_true
      e_live := fun ha => absurd ha Bool.false_ne_true
      d_place := fun ha => absurd ha Bool.false_ne_true
      e_place := fun ha => absurd ha Bool.false_ne_true }

/-- The branch targets are at most `maxPc`: BEQZ's from a live address (R26, R153), BR's always. -/
theorem beqzTarget_le {opc : PcAddr} (h : opc.toNat < Config.imemWords) (off : Field6) :
    (beqzTarget opc off).toNat ≤ maxPc := by
  have hoff := off.isLt
  have hopc : opc.toNat < 1024 := h
  rw [beqzTarget_toNat h]
  show opc.toNat + 1 + off.toNat ≤ 1087
  omega

theorem brTarget_le (h l : Byte) : (brTarget h l).toNat ≤ maxPc :=
  (Nat.le_of_lt (brTarget_lt h l)).trans (by decide)

/-- An instruction keeps the invariant: a cell it writes exists, flags it writes are packed, and a target it requests
is bounded, since the address of an active E is. -/
theorem CoreInv.exec {i : Instr} {s t : State} (h : CoreInv s) (he : s.e.active = true)
    (ht : exec i s = .next t) : CoreInv t := by
  have hc : SameController s t := exec_sameController ht
  obtain ⟨u, hu, hcases⟩ := exec_cases i s
  obtain rfl : u = t := Host.Outcome.next.inj (hu.symm.trans ht)
  obtain ⟨rd, r, F, rfl⟩ | ⟨rd, r, rfl⟩ | ⟨a, v, ha, rfl⟩ | ⟨off, rfl⟩ | ⟨x, y, rfl⟩ | rfl | rfl := hcases
  · exact h.of_sameController hc h.dmem_wf (Flags.pack_top F) h.flush_le
  · exact h.of_sameController hc h.dmem_wf h.sreg_top h.flush_le
  · exact h.of_sameController hc (dmem_wf_writeCell h.dmem_wf ha v) h.sreg_top h.flush_le
  · refine h.of_sameController hc h.dmem_wf h.sreg_top fun b hb => ?_
    obtain ⟨hlive, -, -⟩ := h.e_live he
    exact Option.some.inj hb ▸ beqzTarget_le hlive off
  · exact h.of_sameController hc h.dmem_wf h.sreg_top fun b hb => Option.some.inj hb ▸ brTarget_le x y
  · exact h.of_sameController hc h.dmem_wf h.sreg_top h.flush_le
  · exact h

theorem CoreInv.executeStage {s t : State} (h : CoreInv s) (ht : executeStage s = .next t) : CoreInv t := by
  obtain ⟨-, rfl⟩ | ⟨he, x, hx, rfl⟩ := executeStage_cases ht
  · exact h
  · exact (h.exec he hx).retire

/-- Decode moves a live word from D to E, right behind `pc` now that D is Idle. -/
theorem CoreInv.decodeStage {s : State} (h : CoreInv s) : CoreInv (decodeStage s) := by
  cases hd : s.d.active with
  | false => rw [decodeStage_idle hd]; exact h
  | true =>
    rw [decodeStage_active hd]
    exact { h with
      e_decoded := StageRecord.ofWord_decoded _ _
      d_live := fun ha => absurd ha Bool.false_ne_true
      e_live := fun _ => h.d_live hd
      d_place := fun ha => absurd ha Bool.false_ne_true
      e_place := fun _ => h.d_place hd }

/-- Fetch fills an Idle D with the live word before the new `pc`; E moves one place further back. -/
theorem CoreInv.fetchStage {s : State} (h : CoreInv s) (hd : s.d.active = false) : CoreInv (fetchStage s) := by
  obtain ⟨-, heq⟩ | ⟨-, -, heq⟩ | ⟨hf, hends, heq⟩ := fetchStage_cases s
  · rw [heq]; exact h
  · rw [heq]; exact { h with fetch_until_eop := rfl }
  · obtain ⟨hlt, -⟩ := (fetchEnds_eq_false s).mp hends
    have hnext := pc_add_one_toNat hlt
    have hlt' : s.pc.toNat < 1024 := hlt
    have hlive := liveIn_ofWord hends
    rw [heq]
    exact { h with
      pc_le := show (s.pc + 1).toNat ≤ 1087 by omega
      fetch_until_eop := h.fetch_until_eop.trans (congrArg not hf)
      f_decoded := StageRecord.ofWord_decoded _ _
      d_decoded := StageRecord.ofWord_decoded _ _
      d_live := fun _ => hlive
      d_place := fun _ => hnext
      e_place := fun ha => by
        have hplace := h.e_place ha
        rw [hd] at hplace
        exact hnext.trans (congrArg (· + 1) hplace) }

/-- Settles O45: each sub-step of the cycle keeps the invariant, and fetch finds D Idle after decode. -/
theorem everyStepKeepsTheInvariant : Obligations.EveryStepKeepsTheInvariant := by
  intro s u hs hstep
  obtain ⟨-, rfl⟩ | ⟨-, t, ht, rfl⟩ := step_cases hstep
  · exact hs
  · have ht' : CoreInv t := hs.countCycle.flushStage.executeStage ht
    exact ht'.decodeStage.fetchStage (decodeStage_d_active t)

/-- Settles O44: every field of the reset state, evaluated; no record but F is active and no flush is pending. -/
theorem resetSatisfiesTheInvariant : Obligations.ResetSatisfiesTheInvariant where
  imem_wf := reset_imem_wf
  dmem_wf := reset_dmem_wf
  sreg_top := rfl
  pc_le := Nat.zero_le _
  flush_le := fun _ ha => absurd ha (by simp [State.reset])
  fetch_until_eop := rfl
  f_decoded := rfl
  d_decoded := rfl
  e_decoded := rfl
  d_live := fun ha => absurd ha Bool.false_ne_true
  e_live := fun ha => absurd ha Bool.false_ne_true
  d_place := fun ha => absurd ha Bool.false_ne_true
  e_place := fun ha => absurd ha Bool.false_ne_true

end Sys2Proof.Machine

/-! PROOFS. Noninterference, first on one instruction: it is one named update of the state, and which one follows from
the registers, data memory and E alone. -/

namespace Sys2Proof.Machine

/-- The named updates of the state, one of which every instruction is. -/
inductive NamedUpdate : (State → State) → Prop
  | result (rd : RegIdx) (r : Byte) (F : Flags) : NamedUpdate fun s => writeResult s rd r F
  | reg (rd : RegIdx) (r : Byte) : NamedUpdate fun s => writeReg s rd r
  | cell (a : Nat) (v : Byte) : NamedUpdate fun s => writeCell s a v
  | flush (t : PcAddr) : NamedUpdate fun s => requestFlush s t
  | diag (opc : PcAddr) (w : Word) : NamedUpdate fun s => emitDiag s opc w
  | nothing : NamedUpdate fun s => s

theorem readReg_congr {s s' : State} (h : s'.regs = s.regs) (i : RegIdx) : readReg s' i = readReg s i := by
  rw [readReg, readReg, h]

theorem dmemCell_congr {s s' : State} (h : s'.dmem = s.dmem) (a : Nat) : dmemCell s' a = dmemCell s a := by
  rw [dmemCell, dmemCell, h]

/-- An instruction reads nothing but registers, data memory and E: where these agree it makes the same update. -/
theorem exec_namedUpdate (i : Instr) (s : State) :
    ∃ up, NamedUpdate up ∧
      ∀ s', s'.regs = s.regs → s'.dmem = s.dmem → s'.e = s.e → exec i s' = .next (up s') := by
  cases i with
  | add rd rs =>
    exact ⟨_, .result rd _ _, fun s' hr _ _ => by
      rw [exec_add, readReg_congr hr rd, readReg_congr hr rs]⟩
  | sub rd rs =>
    exact ⟨_, .result rd _ _, fun s' hr _ _ => by
      rw [exec_sub, readReg_congr hr rd, readReg_congr hr rs]⟩
  | mul rd rs =>
    exact ⟨_, .result rd _ _, fun s' hr _ _ => by
      rw [exec_mul, readReg_congr hr rd, readReg_congr hr rs]⟩
  | movi rd imm => exact ⟨_, .reg rd (sext8 imm), fun s' _ _ _ => exec_movi rd imm s'⟩
  | beqz rt off =>
    by_cases hz : readReg s rt = 0x00
    · exact ⟨_, .flush (beqzTarget s.e.opc off), fun s' hr _ he =>
        he ▸ execBeqz_taken ((readReg_congr hr rt).trans hz) off⟩
    · exact ⟨_, .nothing, fun s' hr _ _ => execBeqz_notTaken (fun h => hz ((readReg_congr hr rt).symm.trans h)) off⟩
  | andi rd imm =>
    exact ⟨_, .result rd _ _, fun s' hr _ _ => by rw [exec_andi, readReg_congr hr rd]⟩
  | eor rd rs =>
    exact ⟨_, .result rd _ _, fun s' hr _ _ => by
      rw [exec_eor, readReg_congr hr rd, readReg_congr hr rs]⟩
  | br rh rl =>
    exact ⟨_, .flush _, fun s' hr _ _ => by
      rw [exec_br, readReg_congr hr rh, readReg_congr hr rl]⟩
  | sal rd n =>
    exact ⟨_, .result rd _ _, fun s' hr _ _ => by rw [exec_sal, readReg_congr hr rd]⟩
  | sar rd n =>
    exact ⟨_, .result rd _ _, fun s' hr _ _ => by rw [exec_sar, readReg_congr hr rd]⟩
  | ldr rd imm =>
    exact ⟨_, .reg rd _, fun s' _ hd _ => by rw [exec_ldr, dmemCell_congr hd]⟩
  | str rs imm =>
    exact ⟨_, .cell (dataAddr imm) _, fun s' hr _ _ => by rw [exec_str, readReg_congr hr rs]⟩
  | unknown op r1 r2 =>
    exact ⟨_, .diag s.e.opc s.e.word, fun s' _ _ he => by rw [exec_unknown, he]⟩

/-! `sreg`, the cycle counter and the events (10_state.md R29, R40; 60_exceptions.md R181). -/

/-- The state with other flags, another cycle count and other events. -/
def State.withObserved (s : State) (b : Byte) (n : Nat) (ev : List Diagnostic) : State :=
  { s with sreg := b, cycles := n, diags := ev }

/-- A named update of such a state is the update of the state, with such a change again. -/
theorem NamedUpdate.withObserved {up : State → State} (hup : NamedUpdate up) (s : State) (b : Byte) (n : Nat)
    (ev : List Diagnostic) : ∃ b' n' ev', up (s.withObserved b n ev) = (up s).withObserved b' n' ev' := by
  cases hup with
  | result rd r F => exact ⟨F.pack, n, ev, rfl⟩
  | reg rd r => exact ⟨b, n, ev, rfl⟩
  | cell a v => exact ⟨b, n, ev, rfl⟩
  | flush t => exact ⟨b, n, ev, rfl⟩
  | diag opc w => exact ⟨b, n, ev ++ [.unknownOpcode opc w], rfl⟩
  | nothing => exact ⟨b, n, ev, rfl⟩

theorem executeStage_withObserved {s t : State} (h : executeStage s = .next t) (b : Byte) (n : Nat)
    (ev : List Diagnostic) :
    ∃ b' n' ev', executeStage (s.withObserved b n ev) = .next (t.withObserved b' n' ev') := by
  obtain ⟨he, rfl⟩ | ⟨he, x, hx, rfl⟩ := executeStage_cases h
  · exact ⟨b, n, ev, executeStage_idle he⟩
  · obtain ⟨up, hup, hexec⟩ := exec_namedUpdate s.e.instr s
    obtain rfl : up s = x := Host.Outcome.next.inj ((hexec s rfl rfl rfl).symm.trans hx)
    obtain ⟨b', n', ev', hobs⟩ := hup.withObserved s b n ev
    have hrun : exec s.e.instr (s.withObserved b n ev) = .next ((up s).withObserved b' n' ev') :=
      hobs ▸ hexec (s.withObserved b n ev) rfl rfl rfl
    exact ⟨b', n', ev', executeStage_active (s := s.withObserved b n ev) he hrun⟩

theorem flushStage_withObserved (s : State) (b : Byte) (n : Nat) (ev : List Diagnostic) :
    flushStage false (s.withObserved b n ev) = (flushStage false s).withObserved b n ev := by
  cases hf : s.flush with
  | none => rw [flushStage_none hf, flushStage_none (s := s.withObserved b n ev) hf]
  | some t => rw [flushStage_pending hf, flushStage_pending (s := s.withObserved b n ev) hf]; rfl

theorem decodeStage_withObserved (s : State) (b : Byte) (n : Nat) (ev : List Diagnostic) :
    decodeStage (s.withObserved b n ev) = (decodeStage s).withObserved b n ev := by
  cases hd : s.d.active with
  | false => rw [decodeStage_idle hd, decodeStage_idle (s := s.withObserved b n ev) hd]
  | true => rw [decodeStage_active hd, decodeStage_active (s := s.withObserved b n ev) hd]; rfl

theorem fetchStage_withObserved (s : State) (b : Byte) (n : Nat) (ev : List Diagnostic) :
    fetchStage (s.withObserved b n ev) = (fetchStage s).withObserved b n ev := by
  obtain ⟨hf, heq⟩ | ⟨hf, hends, heq⟩ | ⟨hf, hends, heq⟩ := fetchStage_cases s
  · rw [heq, fetchStage_disabled (s := s.withObserved b n ev) hf]
  · rw [heq, fetchStage_ends (s := s.withObserved b n ev) hf hends]; rfl
  · rw [heq, fetchStage_fetches (s := s.withObserved b n ev) hf hends]; rfl

/-- Settles O55: every sub-step answers the same up to flags, cycle count and events, and so does the halt check. -/
theorem flagsCyclesAndEventsAreWriteOnly : Obligations.FlagsCyclesAndEventsAreWriteOnly := by
  intro s u b n ev hstep
  obtain ⟨hhalted, rfl⟩ | ⟨hrun, t, ht, rfl⟩ := step_cases hstep
  · exact ⟨b, n, ev, step_halted hhalted⟩
  · obtain ⟨b', n', ev', ht'⟩ := executeStage_withObserved ht b (n + 1) ev
    rw [← flushStage_withObserved] at ht'
    refine ⟨b', n', ev', (step_cycle (s := s.withObserved b n ev) hrun ht').trans ?_⟩
    rw [decodeStage_withObserved, fetchStage_withObserved]
    rfl

/-! What an idle D or E holds, and F beside its enable (10_state.md R34, R35). -/

/-- A record that may differ from `r` in its contents while Idle. -/
structure StageRecord.SameWhileActive (r' r : StageRecord) : Prop where
  active_eq : r'.active = r.active
  same_of_active : r'.active = true → r' = r

theorem StageRecord.SameWhileActive.refl (r : StageRecord) : r.SameWhileActive r := ⟨rfl, fun _ => rfl⟩

theorem StageRecord.SameWhileActive.idle (r' r : StageRecord) : r'.idle.SameWhileActive r.idle :=
  ⟨rfl, fun h => absurd h Bool.false_ne_true⟩

/-- Beside a record that is active there is only that record itself. -/
theorem StageRecord.SameWhileActive.eq_of_active {r' r : StageRecord} (h : r'.SameWhileActive r)
    (hr : r.active = true) : r' = r :=
  h.same_of_active (h.active_eq.trans hr)

/-- The state with other stage records. -/
def State.withRecords (s : State) (f d e : StageRecord) : State := { s with f := f, d := d, e := e }

/-- `u` differs from `s` in contents that no rule reads: those of F beside its enable, and of an Idle D or E. -/
def DiffersWhereIdle (s u : State) : Prop :=
  ∃ f d e, u = s.withRecords f d e ∧ f.active = s.f.active ∧ d.SameWhileActive s.d ∧ e.SameWhileActive s.e

/-- A named update leaves the stage records. -/
theorem NamedUpdate.withRecords {up : State → State} (hup : NamedUpdate up) (s : State) (f d e : StageRecord) :
    up (s.withRecords f d e) = (up s).withRecords f d e := by
  cases hup <;> rfl

theorem DiffersWhereIdle.flushStage {s u : State} (h : DiffersWhereIdle s u) :
    DiffersWhereIdle (flushStage false s) (flushStage false u) := by
  obtain ⟨f, d, e, rfl, hf, hd, he⟩ := h
  cases hflush : s.flush with
  | none =>
    rw [flushStage_none hflush, flushStage_none (s := s.withRecords f d e) hflush]
    exact ⟨f, d, e, rfl, hf, hd, he⟩
  | some t =>
    rw [flushStage_pending hflush, flushStage_pending (s := s.withRecords f d e) hflush]
    exact ⟨f, d.idle, e.idle, rfl, hf, .idle d s.d, .idle e s.e⟩

theorem DiffersWhereIdle.executeStage {s u t : State} (h : DiffersWhereIdle s u) (ht : executeStage s = .next t) :
    ∃ v, executeStage u = .next v ∧ DiffersWhereIdle t v := by
  obtain ⟨f, d, e, rfl, hf, hd, he⟩ := h
  obtain ⟨hidle, rfl⟩ | ⟨hactive, x, hx, rfl⟩ := executeStage_cases ht
  · exact ⟨_, executeStage_idle (he.active_eq.trans hidle), f, d, e, rfl, hf, hd, he⟩
  · obtain rfl : e = s.e := he.eq_of_active hactive
    obtain ⟨up, hup, hexec⟩ := exec_namedUpdate s.e.instr s
    obtain rfl : up s = x := Host.Outcome.next.inj ((hexec s rfl rfl rfl).symm.trans hx)
    obtain ⟨-, -, hf', hd', he', -⟩ := exec_sameController hx
    have hrun := hexec (s.withRecords f d s.e) rfl rfl rfl
    rw [hup.withRecords] at hrun
    refine ⟨_, executeStage_active hactive hrun, f, d, s.e.idle, rfl, ?_, ?_, .idle s.e (up s).e⟩
    · exact hf.trans (congrArg StageRecord.active hf'.symm)
    · exact hd'.symm ▸ hd

theorem DiffersWhereIdle.decodeStage {s u : State} (h : DiffersWhereIdle s u) :
    DiffersWhereIdle (decodeStage s) (decodeStage u) := by
  obtain ⟨f, d, e, rfl, hf, hd, he⟩ := h
  cases hactive : s.d.active with
  | false =>
    rw [decodeStage_idle hactive, decodeStage_idle (s := s.withRecords f d e) (hd.active_eq.trans hactive)]
    exact ⟨f, d, e, rfl, hf, hd, he⟩
  | true =>
    obtain rfl : d = s.d := hd.eq_of_active hactive
    rw [decodeStage_active hactive, decodeStage_active (s := s.withRecords f s.d e) hactive]
    exact ⟨f, s.d.idle, _, rfl, hf, .refl _, .refl _⟩

theorem DiffersWhereIdle.fetchStage {s u : State} (h : DiffersWhereIdle s u) :
    DiffersWhereIdle (fetchStage s) (fetchStage u) := by
  obtain ⟨f, d, e, rfl, hf, hd, he⟩ := h
  obtain ⟨hen, heq⟩ | ⟨hen, hends, heq⟩ | ⟨hen, hends, heq⟩ := fetchStage_cases s
  · rw [heq, fetchStage_disabled (s := s.withRecords f d e) (hf.trans hen)]
    exact ⟨f, d, e, rfl, hf, hd, he⟩
  · rw [heq, fetchStage_ends (s := s.withRecords f d e) (hf.trans hen) hends]
    exact ⟨f.idle, d, e, rfl, rfl, hd, he⟩
  · rw [heq, fetchStage_fetches (s := s.withRecords f d e) (hf.trans hen) hends]
    exact ⟨_, _, e, rfl, rfl, .refl _, he⟩

theorem DiffersWhereIdle.halted {s u : State} (h : DiffersWhereIdle s u) : halted u = halted s := by
  obtain ⟨f, d, e, rfl, hf, hd, he⟩ := h
  simp [Machine.halted, haltedWith, State.withRecords, hf, hd.active_eq, he.active_eq]

theorem DiffersWhereIdle.countCycle {s u : State} (h : DiffersWhereIdle s u) :
    DiffersWhereIdle (countCycle s) (countCycle u) := by
  obtain ⟨f, d, e, rfl, hrest⟩ := h
  exact ⟨f, d, e, rfl, hrest⟩

/-- A step of two such states answers two such states. -/
theorem DiffersWhereIdle.step {s u s' : State} (h : DiffersWhereIdle s u) (hstep : step s = .next s') :
    ∃ u', step u = .next u' ∧ DiffersWhereIdle s' u' := by
  obtain ⟨hhalted, rfl⟩ | ⟨hrun, t, ht, rfl⟩ := step_cases hstep
  · exact ⟨u, step_halted (h.halted.trans hhalted), h⟩
  · obtain ⟨v, hv, hdiff⟩ := h.countCycle.flushStage.executeStage ht
    exact ⟨_, step_cycle (h.halted.trans hrun) hv, hdiff.decodeStage.fetchStage⟩

/-- Settles O56: the relation `DiffersWhereIdle`, written out, is kept by a step. -/
theorem idleContentsAreNeverRead : Obligations.IdleContentsAreNeverRead := by
  intro s s' f d e hstep hf hd hd' he he'
  have hdiff : DiffersWhereIdle s (s.withRecords f d e) := ⟨f, d, e, rfl, hf, ⟨hd, hd'⟩, ⟨he, he'⟩⟩
  obtain ⟨u', hu', f', d', e', rfl, hf', ⟨hd₁, hd₂⟩, ⟨he₁, he₂⟩⟩ := hdiff.step hstep
  exact ⟨f', d', e', hu', hf', hd₁, hd₂, he₁, he₂⟩

end Sys2Proof.Machine

/-! PROOFS. Data memory, and what a step may write: first on one instruction, said once; then on the step, whose other
sub-steps write no register, data memory or `sreg`. -/

namespace Sys2Proof.Machine

/-- Different immediates name different cells (R162, R163). -/
theorem dataAddr_inj {imm imm' : Field6} : dataAddr imm' = dataAddr imm ↔ imm' = imm := by
  constructor
  · intro h
    have himm := imm.isLt
    have himm' := imm'.isLt
    rw [dataAddr_eq, dataAddr_eq] at h
    apply BitVec.eq_of_toNat_eq
    split at h <;> split at h <;> omega
  · rintro rfl
    rfl

/-- No immediate names a cell between the two ends of data memory (R51). -/
theorem dataAddr_not_middle (imm : Field6) : dataAddr imm < 32 ∨ 2016 ≤ dataAddr imm := by
  rw [dataAddr_eq]
  split <;> omega

/-- Settles O26: the load reads the store's cell write, at the same cell or at another. -/
theorem loadAnswersTheLastStore : Obligations.LoadAnswersTheLastStore := by
  intro rs rd imm imm' s hs
  refine ⟨_, _, exec_str rs imm s, exec_ldr rd imm' _, ?_, dataAddr_inj.symm⟩
  rw [readReg_writeReg_self, dmemCell_writeCell hs]

/-- Registers, data memory and `sreg` are the same. -/
def SameProgramState (s t : State) : Prop := t.regs = s.regs ∧ t.dmem = s.dmem ∧ t.sreg = s.sreg

/-- What each opcode may write (R21, R29, R33): a result with flags into its r1 (ADD, SUB, MUL, ANDI, EOR, SAL, SAR),
a register into its r1 (MOVI, LDR), a cell (STR), or neither register nor cell nor flag. -/
theorem exec_writes {i : Instr} {s t : State} (h : exec i s = .next t) :
    ((toFields i).op ∈ ([0, 1, 2, 5, 6, 8, 9] : List OpField) ∧
        ∃ rd r F, regOf (toFields i).r1 = rd ∧ t = writeResult s rd r F) ∨
      ((toFields i).op ∈ ([3, 10] : List OpField) ∧ ∃ rd r, regOf (toFields i).r1 = rd ∧ t = writeReg s rd r) ∨
      (∃ rs imm, i = .str rs imm ∧ t = writeCell s (dataAddr imm) (readReg s rs)) ∨
      SameProgramState s t := by
  have hinj {u : State} (hu : exec i s = .next u) : t = u := Host.Outcome.next.inj (h.symm.trans hu)
  cases i with
  | add rd rs => exact .inl ⟨by simp [toFields], rd, _, _, regOf_regBits rd, hinj (exec_add rd rs s)⟩
  | sub rd rs => exact .inl ⟨by simp [toFields], rd, _, _, regOf_regBits rd, hinj (exec_sub rd rs s)⟩
  | mul rd rs => exact .inl ⟨by simp [toFields], rd, _, _, regOf_regBits rd, hinj (exec_mul rd rs s)⟩
  | movi rd imm => exact .inr (.inl ⟨by simp [toFields], rd, _, regOf_regBits rd, hinj (exec_movi rd imm s)⟩)
  | beqz rt off =>
    refine .inr (.inr (.inr ?_))
    by_cases hz : readReg s rt = 0x00
    · rw [hinj (exec_beqz_taken hz off)]
      exact ⟨rfl, rfl, rfl⟩
    · rw [hinj (exec_beqz_notTaken hz off)]
      exact ⟨rfl, rfl, rfl⟩
  | andi rd imm => exact .inl ⟨by simp [toFields], rd, _, _, regOf_regBits rd, hinj (exec_andi rd imm s)⟩
  | eor rd rs => exact .inl ⟨by simp [toFields], rd, _, _, regOf_regBits rd, hinj (exec_eor rd rs s)⟩
  | br rh rl =>
    rw [hinj (exec_br rh rl s)]
    exact .inr (.inr (.inr ⟨rfl, rfl, rfl⟩))
  | sal rd n => exact .inl ⟨by simp [toFields], rd, _, _, regOf_regBits rd, hinj (exec_sal rd n s)⟩
  | sar rd n => exact .inl ⟨by simp [toFields], rd, _, _, regOf_regBits rd, hinj (exec_sar rd n s)⟩
  | ldr rd imm => exact .inr (.inl ⟨by simp [toFields], rd, _, regOf_regBits rd, hinj (exec_ldr rd imm s)⟩)
  | str rs imm => exact .inr (.inr (.inl ⟨rs, imm, rfl, hinj (exec_str rs imm s)⟩))
  | unknown op r1 r2 =>
    rw [hinj (exec_unknown op r1 r2 s)]
    exact .inr (.inr (.inr ⟨rfl, rfl, rfl⟩))

/-- Decode and fetch write no register, data memory or `sreg` (R204). -/
theorem fetchStage_decodeStage_program (s : State) : SameProgramState s (fetchStage (decodeStage s)) := by
  simp [SameProgramState]

/-- A step writes registers, data memory and `sreg` only as the instruction in E does, and that runs only when no
flush is pending. -/
theorem step_program {s u : State} (h : step s = .next u) :
    SameProgramState s u ∨
      (s.flush = none ∧ s.e.active = true ∧
        ∃ t, exec s.e.instr (countCycle s) = .next t ∧ SameProgramState t u) := by
  cases hh : halted s with
  | true =>
    obtain rfl := Host.Outcome.next.inj ((step_halted hh).symm.trans h)
    exact .inl ⟨rfl, rfl, rfl⟩
  | false =>
    obtain ⟨t, -, rfl⟩ | ⟨-, -, rfl⟩ | ⟨hflush, he, t, ht, rfl⟩ := cycle_cases hh h
    · exact .inl (by simp [SameProgramState])
    · exact .inl (fetchStage_decodeStage_program (countCycle s))
    · exact .inr ⟨hflush, he, t, ht, fetchStage_decodeStage_program (retire t)⟩

/-- The instruction in E has the record's op field, and its r1 field names the first register. -/
@[simp] theorem StageRecord.toFields_instr (r : StageRecord) : toFields r.instr = ⟨r.op, r.r1, r.r2⟩ :=
  toFields_ofFields _

/-- Settles O42: only an instruction that writes a result writes flags. -/
theorem statusRegisterWriters : Obligations.StatusRegisterWriters := by
  intro s u hstep hne
  obtain ⟨-, -, hsreg⟩ | ⟨hflush, he, t, ht, -, -, hsreg⟩ := step_program hstep
  · exact absurd hsreg hne
  refine ⟨hflush, he, ?_⟩
  obtain ⟨hop, -⟩ | ⟨-, rd, r, -, rfl⟩ | ⟨rs, imm, -, rfl⟩ | ⟨-, -, hsame⟩ := exec_writes ht
  · rwa [StageRecord.toFields_instr] at hop
  · exact absurd hsreg hne
  · exact absurd hsreg hne
  · exact absurd (hsreg.trans hsame) hne

/-- A register write changes no register but its own. -/
theorem eq_of_readReg_writeReg_ne {s : State} {i j : RegIdx} {v : Byte}
    (h : readReg (writeReg s i v) j ≠ readReg s j) : i = j := by
  by_contra hij
  exact h (readReg_writeReg_ne s (Ne.symm hij) v)

/-- Settles O43: the instructions that write a register write the one in their r1 field. -/
theorem registerWriters : Obligations.RegisterWriters := by
  intro s u j hstep hne
  obtain ⟨hregs, -, -⟩ | ⟨hflush, he, t, ht, hregs, -, -⟩ := step_program hstep
  · exact absurd (readReg_congr hregs j) hne
  rw [readReg_congr hregs j] at hne
  have hresult : ([0, 1, 2, 5, 6, 8, 9] : List OpField) ⊆ [0, 1, 2, 3, 5, 6, 8, 9, 10] := by decide
  have hregister : ([3, 10] : List OpField) ⊆ [0, 1, 2, 3, 5, 6, 8, 9, 10] := by decide
  obtain ⟨hop, rd, r, F, hrd, rfl⟩ | ⟨hop, rd, r, hrd, rfl⟩ | ⟨rs, imm, -, rfl⟩ | ⟨hsame, -, -⟩ := exec_writes ht
  · rw [StageRecord.toFields_instr] at hop hrd
    exact ⟨hflush, he, hresult hop, hrd.trans (eq_of_readReg_writeReg_ne hne)⟩
  · rw [StageRecord.toFields_instr] at hop hrd
    exact ⟨hflush, he, hregister hop, hrd.trans (eq_of_readReg_writeReg_ne hne)⟩
  · exact absurd rfl hne
  · exact absurd (readReg_congr hsame j) hne

/-- A step that changes a cell runs an STR of that very cell, on any data memory. -/
theorem step_dmemCell_ne {s u : State} {a : Nat} (hstep : step s = .next u) (hne : dmemCell u a ≠ dmemCell s a) :
    s.flush = none ∧ s.e.active = true ∧ ∃ rs imm, s.e.instr = .str rs imm ∧ dataAddr imm = a ∧
      u.dmem = (writeCell s a (readReg s rs)).dmem := by
  obtain ⟨-, hdmem, -⟩ | ⟨hflush, he, t, ht, -, hdmem, -⟩ := step_program hstep
  · exact absurd (dmemCell_congr hdmem a) hne
  rw [dmemCell_congr hdmem a] at hne
  refine ⟨hflush, he, ?_⟩
  obtain ⟨-, rd, r, F, -, rfl⟩ | ⟨-, rd, r, -, rfl⟩ | ⟨rs, imm, hstr, rfl⟩ | ⟨-, hsame, -⟩ := exec_writes ht
  · exact absurd rfl hne
  · exact absurd rfl hne
  · obtain rfl : dataAddr imm = a := by
      by_contra ha
      exact hne (dmemCell_writeCell_ne (countCycle s) (Ne.symm ha) _)
    exact ⟨rs, imm, hstr, rfl, hdmem⟩
  · exact absurd (dmemCell_congr hsame a) hne

/-- Settles O28: the STR's cell write read back, on canonical data memory. -/
theorem onlyAStoreWritesDataMemory : Obligations.OnlyAStoreWritesDataMemory := by
  intro s u a hs hstep hne
  obtain ⟨hflush, he, rs, imm, hstr, haddr, hdmem⟩ := step_dmemCell_ne hstep hne
  exact ⟨hflush, he, rs, imm, hstr, haddr, (dmemCell_congr hdmem a).trans (dmemCell_writeCell_self hs a _)⟩

/-- Settles O27: no STR names a cell in the middle. -/
theorem stepsNeverWriteTheMiddleCells : Obligations.StepsNeverWriteTheMiddleCells := by
  intro s u a hstep hlo hhi
  by_contra hne
  obtain ⟨-, -, rs, imm, -, rfl, -⟩ := step_dmemCell_ne hstep hne
  have hends := dataAddr_not_middle imm
  omega

end Sys2Proof.Machine

/-! PROOFS. The sub-steps and the cycle (70_reset_and_hazards.md R202 to R211): what each sub-step does, the three
kinds of cycle, and where `pc` and instruction memory may change. -/

namespace Sys2Proof.Machine

/-- Settles O29: at the spec's FLUSH_REARMS_FETCH a flush touches D, E, `pc` and the request. -/
theorem flushDiscardsDecodeAndExecute : Obligations.FlushDiscardsDecodeAndExecute :=
  fun _ => ⟨fun h => flushStage_none h false, fun _ h => flushStage_pending h⟩

/-- Settles O30: the instruction in E always completes and leaves E to be retired; the frames of the other sub-steps
are their field lemmas. -/
theorem executeRunsAndRetires : Obligations.ExecuteRunsAndRetires := by
  refine ⟨fun s => executeStage_idle, fun s he => ?_, fun s rearm => ?_, fun s => ?_⟩
  · obtain ⟨t, ht, -⟩ := exec_cases s.e.instr s
    obtain ⟨-, -, -, -, hE, -⟩ := exec_sameController ht
    exact ⟨t, ht, (executeStage_active he ht).trans (by rw [retire, hE]; rfl)⟩
  · exact ⟨readReg_congr (flushStage_regs rearm s), dmemCell_congr (flushStage_dmem rearm s), flushStage_sreg rearm s,
      flushStage_flush rearm s⟩
  · obtain ⟨hregs, hdmem, hsreg⟩ := fetchStage_decodeStage_program s
    exact ⟨readReg_congr hregs, dmemCell_congr hdmem, hsreg, by rw [fetchStage_flush, decodeStage_flush]⟩

/-- The controller state by the halt check and `eop` (R39). -/
theorem controllerState_cases (s : State) :
    (halted s = true ∧ s.eop = true ∧ controllerState s = .halted) ∨
      (halted s = false ∧ s.eop = true ∧ controllerState s = .draining) ∨
      (halted s = false ∧ s.eop = false ∧ controllerState s = .running) := by
  cases hh : halted s with
  | true => exact .inl ⟨rfl, ((halted_iff s).mp hh).1, by simp [controllerState, hh]⟩
  | false =>
    cases he : s.eop with
    | true => exact .inr (.inl ⟨rfl, rfl, by simp [controllerState, hh, he]⟩)
    | false => exact .inr (.inr ⟨rfl, rfl, by simp [controllerState, hh, he]⟩)

/-- Settles O33: the halt check, and the three controller states; with fetch disabled, what keeps a core at
end-of-program from Halted is an active D or E. -/
theorem haltCheckAndControllerState : Obligations.HaltCheckAndControllerState := by
  intro s
  refine ⟨halted_iff s, ?_, ?_, fun hfetch => ?_⟩
  · obtain ⟨hh, -, hc⟩ | ⟨hh, -, hc⟩ | ⟨hh, -, hc⟩ := controllerState_cases s <;> simp [hh, hc]
  · obtain ⟨-, he, hc⟩ | ⟨-, he, hc⟩ | ⟨-, he, hc⟩ := controllerState_cases s <;> simp [he, hc]
  · have hbusy : s.eop = true → (halted s = false ↔ s.d.active = true ∨ s.e.active = true) := fun he => by
      have hf : s.f.active = false := by simpa [he] using hfetch
      rw [← Bool.not_eq_true, halted_iff]
      simp [he, hf, imp_iff_not_or]
    obtain ⟨hh, he, hc⟩ | ⟨hh, he, hc⟩ | ⟨-, he, hc⟩ := controllerState_cases s
    · simpa [he, hh, hc] using hbusy he
    · simpa [he, hh, hc] using hbusy he
    · simp [he, hc]

/-- Settles O39: the choice of log entry 2. -/
theorem haltedIsFinal : Obligations.HaltedIsFinal := fun _ => step_halted

/-- Settles O37: a Halted state answers itself, and in a cycle the execute sub-step always answers. -/
theorem noStepFails : Obligations.NoStepFails := by
  intro s
  cases hh : halted s with
  | true => exact ⟨s, step_halted hh⟩
  | false =>
    obtain ⟨t, ht⟩ := executeStage_next (flushStage false (countCycle s))
    exact ⟨_, step_cycle hh ht⟩

/-- A cycle with no flush pending: execute, then decode and fetch (R211). -/
theorem step_noFlush {s t : State} (hflush : s.flush = none) (hrun : halted s = false)
    (ht : executeStage (countCycle s) = .next t) : step s = .next (fetchStage (decodeStage t)) :=
  step_cycle hrun ((congrArg executeStage (flushStage_none (s := countCycle s) hflush false)).trans ht)

/-- A record with decoded fields names the instruction its word decodes to (R36, R204). -/
theorem StageRecord.Decoded.instr_eq {r : StageRecord} (h : r.Decoded) : r.instr = decode r.word :=
  congrArg ofFields h

/-- Settles O34: execute runs the instruction of E, which the decoded word names. -/
theorem stepRunsTheDecodedInstruction : Obligations.StepRunsTheDecodedInstruction := by
  intro s i hflush he hdec hword
  obtain ⟨t, ht, -⟩ := exec_cases i (countCycle s)
  have hinstr : s.e.instr = i := hdec.instr_eq.trans hword
  have hexec : executeStage (countCycle s) = .next (retire t) :=
    executeStage_active (s := countCycle s) he (hinstr.symm ▸ ht)
  exact ⟨t, ht, step_noFlush hflush (halted_eq_false_of_e he) hexec⟩

/-- Settles O35: after the flush E and D are Idle, so execute and decode do nothing. -/
theorem flushCycleExecutesNothing : Obligations.FlushCycleExecutesNothing := by
  intro s t hflush hrun
  have hstage := flushStage_pending (s := countCycle s) hflush
  refine (step_cycle hrun ((congrArg executeStage hstage).trans (executeStage_idle rfl))).trans ?_
  rw [decodeStage_idle rfl]
  rfl

/-- Settles O36: an idle E executes nothing. -/
theorem bubbleCycleExecutesNothing : Obligations.BubbleCycleExecutesNothing :=
  fun s hflush he hrun => step_noFlush hflush hrun (executeStage_idle (s := countCycle s) he)

/-- What fetch does to `pc`: it advances over a word that it brings in (R206). -/
theorem fetchStage_pc (s : State) :
    (fetchStage s).pc =
      if s.f.active = true ∧ s.pc.toNat < 1024 ∧ imemWord s s.pc.toNat ≠ 0x0000 then s.pc + 1 else s.pc := by
  obtain ⟨hf, heq⟩ | ⟨hf, hends, heq⟩ | ⟨hf, hends, heq⟩ := fetchStage_cases s
  · simp [heq, hf]
  · have hnot : ¬ (s.pc.toNat < 1024 ∧ imemWord s s.pc.toNat ≠ 0x0000) := fun h =>
      absurd (hends.symm.trans ((fetchEnds_eq_false s).mpr h)) (by decide)
    rw [heq, if_neg (fun h => hnot h.2)]
  · rw [heq, if_pos ⟨hf, (fetchEnds_eq_false s).mp hends⟩]

/-- Settles O40: the flush sub-step sets `pc` to the pending target, fetch advances it, and no instruction writes
it. -/
theorem pcChangesInTwoPlaces : Obligations.PcChangesInTwoPlaces := by
  refine ⟨fun s u hrun hstep => ⟨_, rfl, ?_⟩, fun i s t h => (exec_sameController h).1⟩
  obtain ⟨hhalted, -⟩ | ⟨-, t, ht, rfl⟩ := step_cases hstep
  · exact absurd (hhalted.symm.trans hrun) (by decide)
  obtain ⟨hpc, himem, hf, -⟩ := executeStage_controller ht
  rw [flushStage_pc] at hpc
  rw [flushStage_false_f] at hf
  rw [flushStage_imem] at himem
  have hword (a : Nat) : imemWord t a = imemWord s a := by rw [imemWord, himem]; rfl
  rw [fetchStage_pc, decodeStage_pc, decodeStage_f, imemWord_decodeStage, hpc, hf, hword]
  rfl

/-- Settles O41: no sub-step writes instruction memory. -/
theorem instructionMemoryIsReadOnly : Obligations.InstructionMemoryIsReadOnly := by
  intro s u hstep
  have himem : u.imem = s.imem := by
    obtain ⟨-, rfl⟩ | ⟨-, t, ht, rfl⟩ := step_cases hstep
    · rfl
    · obtain ⟨-, himem, -⟩ := executeStage_controller ht
      rw [fetchStage_imem, decodeStage_imem, himem, flushStage_imem, countCycle_imem]
  exact ⟨himem, fun a => by rw [imemWord, himem]; rfl⟩

end Sys2Proof.Machine

/-! PROOFS. Reset and load (10_state.md section 7, 60_exceptions.md section 7). -/

namespace Sys2Proof.Machine

/-- Every register reads 0 at reset (R42). -/
theorem readReg_reset (j : RegIdx) : readReg State.reset j = 0x00 := Vector.getElem_replicate _

/-- Settles O46: the registers are a replicated 0, the memories list nothing, the rest is evaluated. -/
theorem resetValues : Obligations.ResetValues :=
  ⟨readReg_reset, fun _ => rfl, fun _ => rfl, rfl, rfl, rfl, rfl, rfl, rfl, rfl, rfl, rfl, rfl⟩

/-- Settles O47: a bubble whose fetch finds the zero word at address 0. -/
theorem emptyCoreHaltsAfterOneCycle : Obligations.EmptyCoreHaltsAfterOneCycle := by
  have hstep := bubbleCycleExecutesNothing State.reset rfl rfl rfl
  exact ⟨_, hstep, rfl, rfl, rfl, rfl⟩

/-- A load that fits places the whole program, under either overflow policy (R44). -/
theorem loadProgram_of_fits (o : LoaderOverflow) {ws : List Word} (hne : ws ≠ [])
    (hlen : ws.length ≤ Config.imemWords) (s : State) :
    loadProgram o ws s = some { s with imem := Memory.ofCells 0 ws } := by
  rw [loadProgram, if_neg hne, if_neg (fun h => absurd h.1 (Nat.not_lt.mpr hlen)), List.take_of_length_le hlen]

/-- Settles O48: no word fails; a program that fits reads back as the memory of its words. -/
theorem loadFillsInstructionMemory : Obligations.LoadFillsInstructionMemory := by
  intro o ws s
  refine ⟨fun h => if_pos h, fun hne hlen => ⟨_, loadProgram_of_fits o hne hlen s, fun a => ?_, ?_, rfl⟩⟩
  · exact (Memory.read_ofCells ws 0 a).trans (if_pos (Nat.zero_le a))
  · exact Memory.wfFrom_ofCells ws (by rwa [Nat.zero_add])

end Sys2Proof.Machine

/-! PROOFS. Timing and hazards (70_reset_and_hazards.md sections 3 and 4). A cycle with no flush pending is decode and
fetch on a state whose controller is that of the old state with E Idle; a flush cycle is fetch at the target. -/

namespace Sys2Proof.Machine

/-- A cycle with no flush pending, whatever E holds: the execute sub-step answers `t`, whose controller is the old one
with E Idle. -/
theorem noFlush_cycle {s u : State} (hflush : s.flush = none) (hrun : halted s = false) (h : step s = .next u) :
    ∃ t, u = fetchStage (decodeStage t) ∧ t.pc = s.pc ∧ t.imem = s.imem ∧ t.f = s.f ∧ t.d = s.d ∧ t.e = s.e.idle ∧
      t.eop = s.eop ∧ t.cycles = s.cycles + 1 := by
  obtain ⟨t, ht⟩ := executeStage_next (countCycle s)
  exact ⟨t, Host.Outcome.next.inj (h.symm.trans (step_noFlush hflush hrun ht)), executeStage_controller ht⟩

/-- An active D is in E after a cycle with no flush pending (R205). -/
theorem noFlush_cycle_e {s u : State} (hflush : s.flush = none) (hd : s.d.active = true) (h : step s = .next u) :
    u.e = StageRecord.ofWord s.d.word s.d.opc := by
  obtain ⟨t, rfl, -, -, -, htd, -⟩ := noFlush_cycle hflush (halted_eq_false_of_d hd) h
  rw [← htd] at hd
  rw [fetchStage_e, decodeStage_active hd, htd]

/-- A word that can be fetched is in D after a fetch (R206). -/
theorem fetchStage_d {s : State} (hf : s.f.active = true) (hends : fetchEnds s = false) :
    (fetchStage s).d = StageRecord.ofWord (imemWord s s.pc.toNat) s.pc := by
  rw [fetchStage_fetches hf hends]

/-- Fetch finds the same after execute and decode as at the start of the cycle, if no flush moves `pc`. -/
theorem fetchEnds_decodeStage {s t : State} (hpc : t.pc = s.pc) (himem : t.imem = s.imem) :
    fetchEnds (decodeStage t) = fetchEnds s := by
  rw [fetchEnds, fetchEnds, decodeStage_pc, imemWord_decodeStage, imemWord, imemWord, hpc, himem]

/-- A word that can be fetched is in D after a cycle with no flush pending (R206). -/
theorem noFlush_cycle_d {s u : State} (hflush : s.flush = none) (hf : s.f.active = true) (hends : fetchEnds s = false)
    (h : step s = .next u) : u.d = StageRecord.ofWord (imemWord s s.pc.toNat) s.pc := by
  obtain ⟨t, rfl, hpc, himem, htf, -⟩ := noFlush_cycle hflush (halted_eq_false_of_f hf) h
  have hf' : (decodeStage t).f.active = true := by rw [decodeStage_f, htf, hf]
  rw [fetchStage_d hf' ((fetchEnds_decodeStage hpc himem).trans hends), imemWord_decodeStage, decodeStage_pc, hpc,
    imemWord, himem]
  rfl

/-- Settles O49: the first cycle brings the word into D, the second moves it to E. -/
theorem fetchToExecuteLatency : Obligations.FetchToExecuteLatency := by
  intro s t u hflush hf hpc hword hst hflush' htu
  have hd := noFlush_cycle_d hflush hf ((fetchEnds_eq_false s).mpr ⟨hpc, hword⟩) hst
  have he := noFlush_cycle_e hflush' (by rw [hd]; rfl) htu
  rw [he, hd]
  exact ⟨rfl, rfl, rfl, rfl⟩

/-- Settles O50: D's word moves to E, and by the invariant it is the live word right behind E's. -/
theorem nextWordExecutesNext : Obligations.NextWordExecutesNext := by
  intro s u hs hflush he hd hstep _
  obtain ⟨-, hword, -⟩ := hs.d_live hd
  have hdplace := hs.d_place hd
  have heplace := hs.e_place he
  rw [hd, Bool.toNat_true] at heplace
  have hnext : s.d.opc.toNat = s.e.opc.toNat + 1 := by omega
  rw [noFlush_cycle_e hflush hd hstep, ← hnext, ← hword]
  exact ⟨rfl, rfl, rfl, rfl⟩

/-- The counted state after the flush sub-step, with `t` the pending target (R203). -/
def flushedTo (t : PcAddr) (s : State) : State :=
  { countCycle s with d := s.d.idle, e := s.e.idle, pc := t, flush := none }

/-- A flush cycle is fetch at the target. -/
theorem flush_cycle {s : State} {t : PcAddr} (hflush : s.flush = some t) (hrun : halted s = false) :
    step s = .next (fetchStage (flushedTo t s)) :=
  flushCycleExecutesNothing s t hflush hrun

/-- A flush cycle that fetches its target executes nothing and leaves the target's word in D (R203, R206, R213). -/
theorem flush_cycle_fetches {s : State} {t : PcAddr} (hflush : s.flush = some t) (hf : s.f.active = true)
    (hlt : t.toNat < 1024) (hword : imemWord s t.toNat ≠ 0x0000) :
    ∃ u, step s = .next u ∧ u.flush = none ∧ u.e.active = false ∧
      u.d = StageRecord.ofWord (imemWord s t.toNat) t ∧ SameProgramState s u ∧ u.diags = s.diags ∧
      u.cycles = s.cycles + 1 := by
  refine ⟨_, flush_cycle hflush (halted_eq_false_of_f hf), ?_⟩
  have hgoes : fetchEnds (flushedTo t s) = false := (fetchEnds_eq_false _).mpr ⟨hlt, hword⟩
  rw [fetchStage_fetches (s := flushedTo t s) hf hgoes]
  exact ⟨rfl, rfl, rfl, ⟨rfl, rfl, rfl⟩, rfl, rfl⟩

/-- A bubble executes nothing (R211). -/
theorem bubble_cycle {s : State} (hflush : s.flush = none) (he : s.e.active = false) (hrun : halted s = false) :
    ∃ u, step s = .next u ∧ u.flush = none ∧ SameProgramState s u ∧ u.diags = s.diags ∧ u.cycles = s.cycles + 1 := by
  refine ⟨_, bubbleCycleExecutesNothing s hflush he hrun, ?_, fetchStage_decodeStage_program _, ?_, ?_⟩
  · rw [fetchStage_flush, decodeStage_flush, hflush]
  · rw [fetchStage_diags, decodeStage_diags]
  · rw [fetchStage_cycles, decodeStage_cycles]

/-- A step that posts a flush ran a cycle: at Halted the request would be the old one. -/
theorem running_of_flush_posted {s u : State} {t : PcAddr} (hflush : s.flush = none) (h : step s = .next u)
    (hposted : u.flush = some t) : halted s = false := by
  by_contra hh
  have hsame : s = u := Host.Outcome.next.inj ((step_halted (eq_true_of_ne_false hh)).symm.trans h)
  rw [← hsame, hflush] at hposted
  exact Option.some_ne_none t hposted.symm

/-- Settles O51: the flush cycle fetches the target, and the bubble after it decodes the target. -/
theorem takenBranchCostsTwoBubbles : Obligations.TakenBranchCostsTwoBubbles := by
  intro s s1 t hflush hstep hposted hf hlt hword
  have hcycles := eachCycleIsCounted s s1 (running_of_flush_posted hflush hstep hposted) hstep
  obtain ⟨-, hwords⟩ := instructionMemoryIsReadOnly s s1 hstep
  rw [← hwords] at hword ⊢
  obtain ⟨s2, hstep2, hflush2, he2, hd2, ⟨hregs2, hdmem2, hsreg2⟩, hdiags2, hcycles2⟩ :=
    flush_cycle_fetches hposted hf hlt hword
  have hactive2 : s2.d.active = true := by rw [hd2]; rfl
  obtain ⟨s3, hstep3, hflush3, ⟨hregs3, hdmem3, hsreg3⟩, hdiags3, hcycles3⟩ :=
    bubble_cycle hflush2 he2 (halted_eq_false_of_d hactive2)
  have he3 : s3.e = StageRecord.ofWord (imemWord s1 t.toNat) t := by
    rw [noFlush_cycle_e hflush2 hactive2 hstep3, hd2]
    rfl
  refine ⟨s2, s3, hstep2, hstep3, he2, hflush2, hflush3, hregs2, hdmem2, hsreg2, hdiags2, ?_, ?_, ?_, ?_,
    hregs3.trans hregs2, hdmem3.trans hdmem2, hsreg3.trans hsreg2, hdiags3.trans hdiags2, by omega⟩
  all_goals rw [he3]; rfl

/-- With fetch off and D Idle, a cycle with no flush pending leaves a core at end-of-program Halted, at the same `pc`:
the branch of R216 with no word after it. -/
theorem halts_of_empty_shadow {s u : State} (hflush : s.flush = none) (he : s.e.active = true)
    (h : step s = .next u) (heop : s.eop = true) (hf : s.f.active = false) (hd : s.d.active = false) :
    halted u = true ∧ u.pc = s.pc ∧ u.cycles = s.cycles + 1 := by
  obtain ⟨t, rfl, hpc, -, htf, htd, hte, hteop, hcycles⟩ := noFlush_cycle hflush (halted_eq_false_of_e he) h
  have hf' : t.f.active = false := by rw [htf, hf]
  have hd' : t.d.active = false := by rw [htd, hd]
  have he' : t.e.active = false := by rw [hte]; rfl
  rw [decodeStage_idle hd', fetchStage_disabled hf']
  exact ⟨(halted_iff t).mpr ⟨hteop.trans heop, hf', hd', he'⟩, hpc, hcycles⟩

/-- A cycle with no flush pending whose fetch ends the program (R206). -/
theorem noFlush_cycle_ends {s u : State} (hflush : s.flush = none) (hf : s.f.active = true)
    (hends : fetchEnds s = true) (h : step s = .next u) : u.f.active = false ∧ u.eop = true := by
  obtain ⟨t, rfl, hpc, himem, htf, -⟩ := noFlush_cycle hflush (halted_eq_false_of_f hf) h
  have hf' : (decodeStage t).f.active = true := by rw [decodeStage_f, htf, hf]
  rw [fetchStage_ends hf' ((fetchEnds_decodeStage hpc himem).trans hends)]
  exact ⟨rfl, rfl⟩

/-- After end-of-program a flush cycle fetches nothing and halts at the target (R216, decision D11). -/
theorem flush_cycle_halts {s : State} {t : PcAddr} (hflush : s.flush = some t) (hrun : halted s = false)
    (hf : s.f.active = false) (heop : s.eop = true) :
    ∃ u, step s = .next u ∧ halted u = true ∧ u.pc = t ∧ u.flush = none ∧ u.regs = s.regs ∧ u.dmem = s.dmem ∧
      u.cycles = s.cycles + 1 := by
  refine ⟨_, flush_cycle hflush hrun, ?_⟩
  rw [fetchStage_disabled (s := flushedTo t s) hf]
  exact ⟨(halted_iff _).mpr ⟨heop, hf, rfl, rfl⟩, rfl, rfl, rfl, rfl, rfl⟩

/-- Settles O52: an empty shadow halts at once; a shadow of one word keeps that word in E for one more cycle, in which
the flush drops it. -/
theorem endMarkerInTheShadowHalts : Obligations.EndMarkerInTheShadowHalts := by
  intro s s1 t hflush he hstep hposted
  refine ⟨halts_of_empty_shadow hflush he hstep, fun hf hd hend => ?_⟩
  have hcycles := eachCycleIsCounted s s1 (halted_eq_false_of_e he) hstep
  obtain ⟨hf1, heop1⟩ := noFlush_cycle_ends hflush hf ((fetchEnds_iff s).mpr hend) hstep
  have hrun1 : halted s1 = false := halted_eq_false_of_e (by rw [noFlush_cycle_e hflush hd hstep]; rfl)
  obtain ⟨s2, hstep2, hhalted2, hpc2, hflush2, hregs2, hdmem2, hcycles2⟩ :=
    flush_cycle_halts hposted hrun1 hf1 heop1
  exact ⟨hrun1, s2, hstep2, hhalted2, hpc2, hflush2, hregs2, hdmem2, by omega⟩

/-- With no flush pending, or with fetch enabled and `eop` false, re-arming fetch changes nothing (R210). -/
theorem flushStage_rearm {s : State} (h : s.flush = none ∨ (s.f.active = true ∧ s.eop = false)) :
    flushStage true s = flushStage false s := by
  obtain hflush | ⟨hf, heop⟩ := h
  · rw [flushStage_none hflush, flushStage_none hflush]
  · have hfetch : { s.f with active := true } = s.f := by rw [← hf]
    unfold flushStage
    split
    · rfl
    · simp [hfetch, heop]

/-- Nor does it change the halt check (R210). -/
theorem haltedWith_rearm {s : State} (h : s.flush = none ∨ (s.f.active = true ∧ s.eop = false)) :
    haltedWith true s = haltedWith false s := by
  obtain hflush | ⟨-, heop⟩ := h
  · simp [haltedWith, hflush]
  · simp [haltedWith, heop]

/-- Settles O53: the parameter is read in the halt check and in the flush sub-step only. -/
theorem rearmMattersOnlyAfterEndOfProgram : Obligations.RearmMattersOnlyAfterEndOfProgram := by
  intro s h
  have hstage : flushStage true (countCycle s) = flushStage false (countCycle s) := flushStage_rearm h
  rw [stepWith, stepWith, haltedWith_rearm h, cycleWith, cycleWith, hstage]

end Sys2Proof.Machine

/-! PROOFS. A run under fuel (70_reset_and_hazards.md R209, decision D28). -/

namespace Sys2Proof.Machine

theorem runFor_halted {s : State} (h : halted s = true) (k : Nat) : runFor k s = .halted s := by
  cases k <;> simp [runFor, h]

theorem runFor_succ {s t : State} (hrun : halted s = false) (h : step s = .next t) (k : Nat) :
    runFor (k + 1) s = runFor k t := by
  simp [runFor, hrun, h]

theorem core_run_succ {M : Host.Core} {s t : M.State} (h : M.step s = .next t) (k : Nat) :
    M.run (k + 1) s = M.run k t := by
  simp only [Host.Core.run, h]

/-- The host's run stays at a Halted state (log entry 2). -/
theorem core_run_halted {s : State} (h : halted s = true) (k : Nat) : Sys2Proof.core.run k s = .next s := by
  induction k with
  | zero => rfl
  | succ k ih => exact (core_run_succ (M := Sys2Proof.core) (step_halted h) k).trans ih

/-- Settles O57, by induction on the fuel: a Halted state is reported at once, and any other state takes one counted
cycle. -/
theorem runUnderFuelReports : Obligations.RunUnderFuelReports := by
  intro k
  induction k with
  | zero =>
    intro s
    cases hh : halted s with
    | true => exact .inl ⟨s, runFor_halted hh 0, hh, Nat.le_refl _, rfl⟩
    | false => exact .inr ⟨s, by simp [runFor, hh], hh, rfl, rfl⟩
  | succ k ih =>
    intro s
    cases hh : halted s with
    | true => exact .inl ⟨s, runFor_halted hh _, hh, Nat.le_add_right _ _, core_run_halted hh _⟩
    | false =>
      obtain ⟨u, hstep⟩ := noStepFails s
      have hcycles := eachCycleIsCounted s u hh hstep
      rw [runFor_succ hh hstep, core_run_succ (M := Sys2Proof.core) hstep]
      obtain ⟨t, hreport, ht, hle, hrun⟩ | ⟨t, hreport, ht, heq, hrun⟩ := ih u
      · exact .inl ⟨t, hreport, ht, by omega, hrun⟩
      · exact .inr ⟨t, hreport, ht, by omega, hrun⟩

end Sys2Proof.Machine
